-- ==== Sys2Proof/Config.lean ====
section
/-! DEFINITION. The constants of 00_scope.md R4 and the least widths of the parameters of R5.
They are constants of the hardware, not parameters; the spec leaves no result open, so there is no free value here. -/

namespace Sys2Proof.Config

/-- "exactly 8 rows" (R4). -/
@[simp] abbrev tileRows : Nat := 8

/-- "each of exactly 8 values" (R4). -/
@[simp] abbrev tileCols : Nat := 8

/-- 8 × 8 (R4). -/
@[simp] abbrev pixelsPerTile : Nat := tileRows * tileCols

/-- The largest pixel value: "a 2-bit unsigned value in {0,1,2,3}" (R4, R103). -/
@[simp] abbrev maxPixel : Nat := 3

/-- "two ordered sequences of 8 bytes each" (R4). -/
@[simp] abbrev planes : Nat := 2

/-- The bytes of one plane of one tile (R4). -/
@[simp] abbrev planeBytes : Nat := 8

/-- "the 16-byte on-disk unit for one Tile" (R4). -/
@[simp] abbrev recordBytes : Nat := planes * planeBytes

/-- "exactly 256 Tile records" (R4). -/
@[simp] abbrev tilesPerBank : Nat := 256

/-- "total size exactly 4096 bytes" (R4); the `expected` of InvalidBankSize (R105). -/
@[simp] abbrev bankBytes : Nat := tilesPerBank * recordBytes

/-- LENW ≥ 13: the least width of a fixed-width LEN port (R5, decision D10). -/
@[simp] abbrev minLenWidth : Nat := 13

/-- PIXW ≥ 3: the least width of a fixed-width raw pixel (R5, decision D11). -/
@[simp] abbrev minPixWidth : Nat := 3

/-- The bound on work the document gives, "256 tiles × 8 rows × 8 columns, fixed work" (R131); no rule depends on time. -/
@[simp] abbrev pixelStepsPerBank : Nat := tilesPerBank * pixelsPerTile

end Sys2Proof.Config
end

