-- ==== Sys2Proof/Word.lean ====
section
/-! DEFINITION. The value domains of CORE's ports (10_state.md R14): pixels, bytes, tiles, records and banks.
Every value is unsigned (00_scope.md R6, 45_laws.md R97); bit k of a byte or a pixel `v` is `v.getLsbD k`, of weight 2^k. -/

namespace Sys2Proof

/-- A Pixel, an unsigned integer in 0..3; bit 1 has weight 2 and bit 0 has weight 1 (R6, R14). -/
abbrev Pixel := BitVec 2

/-- A Byte, an unsigned integer in 0..255; bit 7 is the most significant (R6, R14). -/
abbrev Byte := BitVec 8

/-- Eight Pixels of one row; element c is column c, column 0 leftmost (R21). -/
abbrev Row := Vector Pixel 8

/-- A Tile: 8 Rows of 8 Pixels, row 0 at the top; `T[r][c]` of the spec is `t[r][c]` (R14, R21). -/
abbrev Tile := Vector Row 8

/-- A Tile record: 16 Bytes, `R[k]` of the spec is `rec[k]` (R14, R24). -/
abbrev TileRecord := Vector Byte 16

/-- A Bank image: 4096 Bytes and nothing else; `K[a]` of the spec is `bank[a]` (R14, R26, R28). -/
abbrev BankImage := Vector Byte 4096

/-- A Tile bank: 256 Tiles in input order (R14). -/
abbrev TileBank := Vector Tile 256

/-- A Record bank: 256 Tile records in input order (R14, R26). -/
abbrev RecordBank := Vector TileRecord 256

/-- A Raw tile: host data not yet checked, any number of rows, each of any number of natural numbers (R14, R45). -/
abbrev RawTile := List (List Nat)

/-- A Raw bank: any number of Raw tiles (R14, R45). -/
abbrev RawBank := List RawTile

/-- A byte string together with its length: LEN is `data.length` and so cannot differ from it (R14, R83, log 13). -/
abbrev ByteString := List Byte

end Sys2Proof
end

