-- ==== Sys2Proof/Syntax.lean ====
section
/-! DEFINITION. The eight operations of CORE (30_encoding.md R50) and the notation of host programs (R54).
The select word SEL is all opcode: no operation has a register field, an immediate or a mode bit (R51), so no constructor
of `Instr` has an argument; an operation's operand is its input port (10_state.md section 3). -/

namespace Sys2Proof

/-- One constructor per row of spec/opcode_table.json. -/
inductive Instr where
  /-- TENC: Tile to Tile record (R60). -/
  | tenc
  /-- TDEC: Tile record to Tile (R65). -/
  | tdec
  /-- BMUX: 256 Tile records to Bank image (R70). -/
  | bmux
  /-- BDMX: Bank image to 256 Tile records (R75). -/
  | bdmx
  /-- BENC: 256 Tiles to Bank image (R82). -/
  | benc
  /-- BDEC: byte string with its length to 256 Tiles, or InvalidBankSize (R83). -/
  | bdec
  /-- ADMIT_TILE: Raw tile to Tile, or InvalidBitmapShape, or InvalidPixelValue (R80). -/
  | admitTile
  /-- ADMIT_BANK: Raw bank to 256 Tiles, or InvalidBitmapShape, or InvalidPixelValue (R81). -/
  | admitBank
deriving DecidableEq, Repr

/-! ### Host programs (R54). The variables, the position and the labels are host state, not CORE state (R11). -/

/-- A value a host variable can hold: one of the eight operand domains (R14, R50), or the outcome of a comparison, as the programs of
95_test_vectors.md have them. R54 puts no limit on what a host expression yields; a Pixel, a Byte, a number or a status, which no
operation takes as its operand, cannot be bound here. DESIGN CHOICE (log 24). -/
inductive HostValue where
  | tile (t : Tile)
  | record (r : TileRecord)
  | recs (rs : RecordBank)
  | bank (k : BankImage)
  | tiles (ts : TileBank)
  | data (b : ByteString)
  | rawTile (raw : RawTile)
  | rawBank (raw : RawBank)
  | truth (b : Bool)
deriving DecidableEq, Repr

/-- The host variables bound so far; a variable is a number. -/
abbrev HostEnv := List (Nat × HostValue)

/-- What stands at the source of an invocation. R54 says "the host variable `src`"; 95_test_vectors.md 3.4 also writes an element,
`TDEC recs[6]`, and R55 `TENC tb[i]` and the tuple `BMUX (r_0, ..., r_255)`. All three are sources here. DESIGN CHOICE (log 21). -/
inductive HostOperand where
  /-- `x`: a whole variable. -/
  | var (x : Nat)
  /-- `x[i]`: element i of a variable that holds a bank. -/
  | elem (x i : Nat)
  /-- `(x_0, x_1, ...)`: the bank whose elements are the variables' values, in order. -/
  | tuple (xs : List Nat)
deriving DecidableEq, Repr

/-- The variables a source reads. -/
def HostOperand.vars : HostOperand → List Nat
  | .var x => [x]
  | .elem x _ => [x]
  | .tuple xs => xs

/-- One line of a host program. -/
inductive HostLine where
  /-- Forms (a) and (b) of R54: `dst <- MNEMONIC src` and `dst <- MNEMONIC src ? label`. -/
  | invoke (dst : Nat) (i : Instr) (src : HostOperand) (onError : Option Nat)
  /-- Form (c) of R54: `dst <- host: <expression>`. The spec writes the expression "in words or pseudocode" and gives it no
  grammar; here it is any function of the variables bound so far (log 15). -/
  | host (dst : Nat) (value : HostEnv → HostValue)

/-- A line with the label that may stand before it (`label:`); a label is a number. -/
structure HostStmt where
  label : Option Nat
  line : HostLine

/-- A host program: its lines in order. -/
abbrev HostProgram := List HostStmt

/-- The variable a line binds. -/
def HostLine.dst : HostLine → Nat
  | .invoke d _ _ _ => d
  | .host d _ => d

/-- The variables an invocation reads; a host step reads what it likes. -/
def HostLine.srcs : HostLine → List Nat
  | .invoke _ _ src _ => src.vars
  | .host _ _ => []

/-- The label an invocation goes to on an error, if it names one. -/
def HostLine.target? : HostLine → Option Nat
  | .invoke _ _ _ l => l
  | .host _ _ => none

end Sys2Proof
end

