-- ==== Sys2Proof/WellFormed.lean ====
section
/-! DEFINITION. Which terms are well formed.
All eight select codes are assigned and an operation has no operand field (30_encoding.md R51, R52), so every `Instr` is well
formed and there is nothing to check of one (log 6). The checks of a host program rest on R54: "a host variable is
bound once and never changed", a line invokes an operation on a host variable, and `? label` names a marked line. That they are
checked on the text, line by line, is the model's choice (log 22). -/

namespace Sys2Proof

/-- Every operation is well formed: "there is no illegal, reserved, hint or custom select code" (R52). -/
def Instr.wellFormed : Instr → Bool
  | .tenc => true
  | .tdec => true
  | .bmux => true
  | .bdmx => true
  | .benc => true
  | .bdec => true
  | .admitTile => true
  | .admitBank => true

namespace HostProgram

/-- The variables a program's lines bind, in order. -/
def dsts (p : HostProgram) : List Nat := p.map (·.line.dst)

/-- The labels that stand in a program. -/
def labels (p : HostProgram) : List Nat := p.filterMap (·.label)

/-- "a host variable is bound once": no two lines bind the same variable. -/
def bindsOnce (p : HostProgram) : Bool := decide (dsts p).Nodup

/-- No label marks two lines. -/
def labelsOnce (p : HostProgram) : Bool := decide (labels p).Nodup

/-- Every `? label` names a label of the program. -/
def targetsMarked (p : HostProgram) : Bool :=
  p.all fun st => match st.line.target? with
    | none => true
    | some l => decide (l ∈ labels p)

/-- Every variable an invocation reads is one that some textually earlier line binds. R54 sets no textual order: a source bound by a
later line that a backward `? label` branch has already run is refused here, though `hostRun` runs such a program. DESIGN CHOICE
(log 22). -/
def sourcesBound : List Nat → HostProgram → Bool
  | _, [] => true
  | bound, st :: rest =>
    (st.line.srcs.all fun x => decide (x ∈ bound)) && sourcesBound (st.line.dst :: bound) rest

/-- A well-formed host program. -/
def wellFormed (p : HostProgram) : Bool :=
  bindsOnce p && labelsOnce p && targetsMarked p && sourcesBound [] p

end HostProgram

end Sys2Proof
end

