-- ==== Sys2Proof/Decode.lean ====
section
/-! DEFINITION. The select word SEL: a 3-bit word that is all opcode (30_encoding.md R50, R51).
All eight values are assigned, so the decoder of `op` is total and there is nothing it could reject (R52). -/

namespace Sys2Proof

/-- The operation that `op` selects, by the code column of R50. -/
def decode (op : BitVec 3) : Instr :=
  match op.toFin with
  | 0 => .tenc
  | 1 => .tdec
  | 2 => .bmux
  | 3 => .bdmx
  | 4 => .benc
  | 5 => .bdec
  | 6 => .admitTile
  | 7 => .admitBank

/-- The select word of an operation (R50; the `encoding` column of opcode_table.json). -/
def encode : Instr → BitVec 3
  | .tenc => 0b000#3
  | .tdec => 0b001#3
  | .bmux => 0b010#3
  | .bdmx => 0b011#3
  | .benc => 0b100#3
  | .bdec => 0b101#3
  | .admitTile => 0b110#3
  | .admitBank => 0b111#3

/-- The three wires of the wrapper's `op` port, taken from a word `w` of `nbits` bits: bits 2 to 0, the bits the table's mask
0x7 names. Bits at or above `nbits` are 0, and bits 3 and up do not exist on the port, so they are not read (log 5). -/
def selectBits (nbits w : Nat) : BitVec 3 := BitVec.ofNat 3 (w % 2 ^ nbits)

/-- The operation read from a word numbered as spec/opcode_table.json numbers it; the decoder is total, so it never refuses. -/
def decodeTableWord (nbits w : Nat) : Option Instr := some (decode (selectBits nbits w))

end Sys2Proof
end

