-- ==== Sys2Proof/Machine/State.lean ====
section
/-! DEFINITION. CORE holds no data from one operation to the next: no register, flag, program counter, control register, buffer or
memory (10_state.md R10 to R13, R16). "The only things that have values are the inputs and outputs of the operation in
progress" (R10), so `State` holds that interface and nothing else (log 1): one `Invocation` for each call a host has open, since
several hosts may use one instance at the same time (20_memory.md R33, 60_exceptions.md R113). -/

namespace Sys2Proof.Machine

/-- The three error kinds (60_exceptions.md R100); only InvalidBankSize carries a payload. -/
inductive Error where
  /-- Wrong row, column or tile count (R102). -/
  | invalidBitmapShape
  /-- A value greater than 3 (R103). -/
  | invalidPixelValue
  /-- The byte string's length is not 4096; both sizes are reported (R105). -/
  | invalidBankSize (expected actual : Nat)
deriving DecidableEq, Repr

/-- The data output of an operation that ended with status OK: one of the output ports of 10_state.md section 3. -/
inductive Output where
  /-- TENC's `rec`. -/
  | record (r : TileRecord)
  /-- TDEC's and ADMIT_TILE's `tile`. -/
  | tile (t : Tile)
  /-- BMUX's and BENC's `bank`. -/
  | bank (k : BankImage)
  /-- BDMX's `recs`. -/
  | recs (rs : RecordBank)
  /-- BDEC's and ADMIT_BANK's `tiles`. -/
  | tiles (ts : TileBank)
deriving DecidableEq, Repr

/-- What an operation delivers: a data output, or an error and no data output at all (R8, R104). -/
inductive Reply where
  | ok (out : Output)
  | raised (e : Error)
deriving DecidableEq, Repr

/-- Where the invocation stands (70_reset_and_hazards.md R123, R128). An output has a value only inside a delivered reply. -/
inductive Call where
  /-- Nothing has been presented and nothing delivered since (R18, R120). -/
  | idle
  /-- The host has presented `op` and the inputs; the result is not delivered yet. -/
  | inProgress
  /-- The operation has ended with this reply. -/
  | delivered (r : Reply)
deriving DecidableEq, Repr

/-- The input ports, one per operation, so that an operand of the wrong domain cannot be written (30_encoding.md R52). -/
structure Inputs where
  /-- TENC's `tile`. -/
  tile : Tile
  /-- TDEC's `rec`. -/
  record : TileRecord
  /-- BMUX's `recs`. -/
  recs : RecordBank
  /-- BDMX's `bank`. -/
  bank : BankImage
  /-- BENC's `tiles`. -/
  tiles : TileBank
  /-- BDEC's `data`; LEN is its length. -/
  data : ByteString
  /-- ADMIT_TILE's `raw`. -/
  rawTile : RawTile
  /-- ADMIT_BANK's `raw`. -/
  rawBank : RawBank
deriving DecidableEq, Repr

/-- One call by one host: everything that has a value while its operation is in progress, and its reply after that. -/
structure Invocation where
  /-- The host that invoked it; its reply goes to that host and to nobody else (60_exceptions.md R104). -/
  host : Nat
  /-- The wrapper's operation select, a port of one operation (R13, R51). -/
  op : BitVec 3
  /-- The input ports, driven by the host. -/
  inp : Inputs
  /-- Where the invocation stands, with the reply once it is delivered. -/
  call : Call
deriving DecidableEq, Repr

/-- One CORE instance: the invocation whose turn it is, and the other open ones. No order among them is the spec's, and no reply
depends on it (R33, log 17). -/
structure State extends Invocation where
  /-- The other invocations, in progress or delivered and not yet closed by their host (log 9). -/
  others : List Invocation
deriving DecidableEq, Repr

/-- Why the machine takes no step. No operation ever ends so: an error of an operation is a delivered reply (R104, log 7). -/
inductive Fault where
  /-- Raised by `step` alone, when no invocation of the instance is in progress: "CORE never acts on its own" (R123). Safe: the machine is
  stuck where the hardware waits for the host (log 3). -/
  | noInvocation
deriving DecidableEq, Repr

/-- Why the model gives no meaning. No arm of `exec` uses one. -/
inductive Refusal where
  /-- For an arm of `exec` whose operation had no meaning yet; none is left. Safe: the machine stops. -/
  | notModelled (mnemonic : String)
deriving DecidableEq, Repr

/-- The input ports at reset. The spec gives them no value (R18: the set of state elements is empty); zeros and empty sequences
stand there until the host presents something. DESIGN CHOICE, unsafe (log 2). -/
def Inputs.reset : Inputs where
  tile := Vector.replicate 8 (Vector.replicate 8 0#2)
  record := Vector.replicate 16 0#8
  recs := Vector.replicate 256 (Vector.replicate 16 0#8)
  bank := Vector.replicate 4096 0#8
  tiles := Vector.replicate 256 (Vector.replicate 8 (Vector.replicate 8 0#2))
  data := []
  rawTile := []
  rawBank := []

/-- Right after reset nothing is in progress and no output has a value (R18, R120); `op` is a host-driven port and
`host` names nobody yet (log 2). -/
def State.reset : State where
  host := 0
  op := 0#3
  inp := Inputs.reset
  call := .idle
  others := []

end Sys2Proof.Machine
end

