-- ==== Sys2Proof/Machine/Ops.lean ====
section
/-! DEFINITION. The shared operations: delivering a result or an error, the invocations of an instance and reset, the address
map of a Bank image, and the two byte accesses `MemRead` and `MemWrite` on a Bank image value. -/

namespace Sys2Proof.Machine

/-! ### The end of an operation (20_memory.md R31, 60_exceptions.md R104) -/

/-- An invocation that has ended with reply `r`; its host, select and inputs are as they were (10_state.md R17). -/
def Invocation.answered (v : Invocation) (r : Reply) : Invocation := { v with call := .delivered r }

/-- The invocation whose turn it is ends with reply `r`; no other invocation changes (20_memory.md R33). -/
def State.withReply (s : State) (r : Reply) : State := { s with toInvocation := s.toInvocation.answered r }

/-- Status OK with its data output, all of it together (R31, R128). -/
def deliver (out : Output) (s : State) : Host.Outcome State Fault Refusal := .next (s.withReply (.ok out))

/-- `raise E(info)`: the status and its payload go to the host, no data output, nothing saved and nothing changed; control
returns to the host (00_scope.md R8, R104). There is no return operation and nothing to restore (R109). -/
def raise (e : Error) (s : State) : Host.Outcome State Fault Refusal := .next (s.withReply (.raised e))

/-- An operation that may fail ends with its error or its output, never both (R94, R104). -/
def finish (r : Except Error Output) (s : State) : Host.Outcome State Fault Refusal :=
  match r with
  | .ok out => deliver out s
  | .error e => raise e s

/-- The reply, while it is delivered; an output has no value at any other time (R18). -/
def Invocation.reply (v : Invocation) : Option Reply :=
  match v.call with
  | .idle => none
  | .inProgress => none
  | .delivered r => some r

/-! ### The invocations of an instance (20_memory.md R33, 60_exceptions.md R113) -/

/-- The invocation is presented and its result not delivered yet. -/
def Invocation.inProgress (v : Invocation) : Bool :=
  match v.call with
  | .idle => false
  | .inProgress => true
  | .delivered _ => false

/-- The invocation is open: some host has presented it and not closed it. -/
def Invocation.live (v : Invocation) : Bool :=
  match v.call with
  | .idle => false
  | .inProgress => true
  | .delivered _ => true

/-- Every invocation of the instance. -/
def State.invocations (s : State) : List Invocation := s.toInvocation :: s.others

/-- The open invocations of the instance. -/
def State.live (s : State) : List Invocation := s.invocations.filter Invocation.live

/-- How many invocations of the instance are in progress. -/
def State.inProgressCount (s : State) : Nat := s.invocations.countP Invocation.inProgress

/-- The open invocations once another one takes the turn: none is dropped, since an operation once invoked cannot be cancelled
(60_exceptions.md R110), and a delivered value is not changed by a later operation (70_reset_and_hazards.md R132). -/
def State.parked (s : State) : List Invocation :=
  match s.call with
  | .idle => s.others
  | .inProgress => s.others ++ [s.toInvocation]
  | .delivered _ => s.others ++ [s.toInvocation]

/-- Give the turn to the other invocation at position k; the two change places and nothing else happens. -/
def State.focus (k : Nat) (s : State) : State :=
  match s.others[k]? with
  | none => s
  | some v => { toInvocation := v, others := s.others.set k s.toInvocation }

/-- The instance with the turn at an invocation in progress; none when there is none. The spec gives operations in progress at once
no order: the one whose turn it is goes first, then the one at the least position. DESIGN CHOICE (log 17). -/
def State.nextUp (s : State) : Option State :=
  if s.inProgress then some s
  else (s.others.findIdx? Invocation.inProgress).map fun k => s.focus k

/-- Reset ends an invocation in progress without any result; it does not touch another one (70_reset_and_hazards.md R120). -/
def Invocation.cut (v : Invocation) : Invocation :=
  match v.call with
  | .idle => v
  | .inProgress => { v with call := .idle }
  | .delivered _ => v

/-- Reset: every operation in progress delivers no result at all and must be invoked again; between operations reset changes
nothing (70_reset_and_hazards.md R120, log 10). -/
def State.applyReset (s : State) : State :=
  { toInvocation := s.toInvocation.cut, others := s.others.map Invocation.cut }

/-! ### The address map (20_memory.md R24, R27, R37) -/

/-- The index in a Tile record of the plane-q byte of row r: plane-major, 8·q + r (R24). -/
def recordByte (q : Fin 2) (r : Fin 8) : Fin 16 := ⟨8 * q + r, by omega⟩

/-- The offset in a Bank image of byte k of record i: 16·i + k (R27). -/
def bankByte (i : Fin 256) (k : Fin 16) : Fin 4096 := ⟨16 * i + k, by omega⟩

/-- The offset of the plane-q byte of row r of tile i: 16·i + 8·q + r (R27). -/
def bankOffset (i : Fin 256) (q : Fin 2) (r : Fin 8) : Fin 4096 := bankByte i (recordByte q r)

/-- The tile that offset a belongs to: a div 16 (R37). -/
def tileOfOffset (a : Fin 4096) : Fin 256 := ⟨a / 16, by omega⟩

/-- The byte of its record that offset a is: a mod 16 (R37). -/
def byteOfOffset (a : Fin 4096) : Fin 16 := ⟨a % 16, by omega⟩

/-- The plane of offset a: (a mod 16) div 8 (R37). -/
def planeOfOffset (a : Fin 4096) : Fin 2 := ⟨a % 16 / 8, by omega⟩

/-- The row of offset a: a mod 8 (R37). -/
def rowOfOffset (a : Fin 4096) : Fin 8 := ⟨a % 8, by omega⟩

/-- Column c of a row is bit 7 − c of its byte: most significant bit leftmost (R23). -/
def columnBit (c : Fin 8) : Nat := 7 - c

/-- The same function on every element, index by index: the lanes of a bank do not read one another (40_tile_encoder.md R61). -/
def mapVec {α β : Type} {n : Nat} (f : α → β) (v : Vector α n) : Vector β n := Vector.ofFn fun i : Fin n => f v[i]

/-! ### Byte accesses on a Bank image value (20_memory.md R29) -/

/-- `MemRead(K, a, n)`: the n bytes from offset a in ascending order, without side effect; a + n ≤ 4096 (R29). -/
def memRead (k : BankImage) (a n : Nat) (h : a + n ≤ 4096) : Vector Byte n :=
  Vector.ofFn fun j : Fin n => k[a + j.val]

/-- `MemWrite(K, a, n, v)`: K with the n bytes from offset a replaced by v in ascending order; a + n ≤ 4096 (R29). -/
def memWrite (k : BankImage) (a n : Nat) (v : Vector Byte n) (_h : a + n ≤ 4096) : BankImage :=
  Vector.ofFn fun b : Fin 4096 => if hb : a ≤ b.val ∧ b.val - a < n then v[b.val - a] else k[b.val]

end Sys2Proof.Machine
end

