-- ==== Sys2Proof/Machine/Operands.lean ====
section
/-! DEFINITION. The operand forms: a pixel and its two plane bits (30_encoding.md R40), a row and its byte pair (R41), the flat
order of a Tile's pixels (20_memory.md R22), and the admission tests and conversion of raw data (R45, 44_bank_codec.md R80, R81). -/

namespace Sys2Proof.Machine

/-! ### Pixels (R25, R40) -/

/-- The plane-0 bit of a pixel, `v & 1` (R40). -/
def plane0Bit (v : Pixel) : Pixel := v &&& 1#2

/-- The plane-1 bit of a pixel, `(v >> 1) & 1` (R40). -/
def plane1Bit (v : Pixel) : Pixel := (v >>> 1) &&& 1#2

/-- The plane-q bit of a pixel as a truth value: bit q (R25). -/
def planeBit (q : Fin 2) (v : Pixel) : Bool :=
  match q with
  | 0 => plane0Bit v == 1#2
  | 1 => plane1Bit v == 1#2

/-- `b0 + 2·b1`, both bits zero-extended to the pixel width first (R40). -/
def assemble (b0 b1 : Bool) : Pixel :=
  (BitVec.ofBool b0).zeroExtend 2 + 2#2 * (BitVec.ofBool b1).zeroExtend 2

/-! ### Rows (R41) -/

/-- `P[k] <- b` on a byte. -/
def setBit (p : Byte) (k : Nat) (b : Bool) : Byte :=
  if b then p ||| (1#8 <<< k) else p &&& ~~~(1#8 <<< k)

/-- The plane-q byte of a row: starting from 0, `P[7 − c] <- w[c][q]` for every column c (R41, R60). -/
def planeByte (q : Fin 2) (w : Row) : Byte :=
  (List.finRange 8).foldl (fun p c => setBit p (columnBit c) (planeBit q w[c])) 0#8

/-- `row_enc(w)`, the byte pair (P0, P1) of a row (R41). -/
def rowEnc (w : Row) : Byte × Byte := (planeByte 0 w, planeByte 1 w)

/-- `row_dec(P0, P1)`, the row with `w[c] = P0[7 − c] + 2·P1[7 − c]` (R41). -/
def rowDec (p0 p1 : Byte) : Row :=
  Vector.ofFn fun c : Fin 8 => assemble (p0.getLsbD (columnBit c)) (p1.getLsbD (columnBit c))

/-! ### The flat pixel order (R22) -/

/-- The 64 pixels of a Tile in row-major order: `px[8·r + c] = t[r][c]` (R22). -/
def pixels (t : Tile) : Vector Pixel 64 :=
  Vector.ofFn fun p : Fin 64 => t[p.val / 8][p.val % 8]

/-- The Tile whose pixels in row-major order are these (R22). -/
def tileOfPixels (px : Vector Pixel 64) : Tile :=
  Vector.ofFn fun r : Fin 8 => Vector.ofFn fun c : Fin 8 => px[8 * r.val + c.val]

/-! ### Admission of raw data (R80, R81, R87): each test on its own, shape before value (R106) -/

/-- Exactly 8 rows, each of exactly 8 values (R80, R102). -/
def tileShapeOk (raw : RawTile) : Bool :=
  decide (raw.length = Config.tileRows) && raw.all fun row => decide (row.length = Config.tileCols)

/-- Every value is in 0..3 (R80, R103). -/
def tileValuesOk (raw : RawTile) : Bool :=
  raw.all fun row => row.all fun v => decide (v ≤ Config.maxPixel)

/-- Exactly 256 tiles, each of the right shape (R81, R102). -/
def bankShapeOk (raw : RawBank) : Bool :=
  decide (raw.length = Config.tilesPerBank) && raw.all tileShapeOk

/-- Every value of every tile is in 0..3 (R81, R103). -/
def bankValuesOk (raw : RawBank) : Bool := raw.all tileValuesOk

/-- The value at row r, column c of raw data; 0 where there is none (it is read only after the shape test has passed). -/
def rawPixel (raw : RawTile) (r c : Nat) : Nat := (raw.getD r []).getD c 0

/-- `tile[r][c] <- raw[r][c]`, used only after both tests have passed, so that no value is masked or truncated (R80). -/
def tileOfRaw (raw : RawTile) : Tile :=
  Vector.ofFn fun r : Fin 8 => Vector.ofFn fun c : Fin 8 => BitVec.ofNat 2 (rawPixel raw r c)

/-- `tiles[i] <- the Tile of raw[i]`, used only after both tests of the whole bank have passed (R81). -/
def tilesOfRaw (raw : RawBank) : TileBank :=
  Vector.ofFn fun i : Fin 256 => tileOfRaw (raw.getD i [])

/-- The 4096 bytes of a byte string of the right length, as a Bank image, offset 0 first (R30, R83). -/
def bankOfBytes (data : ByteString) (h : data.length = 4096) : BankImage := ⟨data.toArray, by simpa using h⟩

end Sys2Proof.Machine
end

