-- ==== Sys2Proof/Machine/BankDemux.lean ====
section
/-! DEFINITION. BDMX, the bank demultiplexer (43_bank_demultiplexer.md). -/

namespace Sys2Proof.Machine

/-- The 256 contiguous 16-byte records of an image, `recs[i] = MemRead(bank, 16·i, 16)` (R75). -/
def bdmx (bank : BankImage) : RecordBank :=
  Vector.ofFn fun i : Fin 256 => memRead bank (16 * i.val) 16 (by omega)

/-- BDMX: delivers the records of the image at port `bank`; it looks at no byte value, so always status OK (R44, R75). -/
def execBdmx (s : State) : Host.Outcome State Fault Refusal := deliver (.recs (bdmx s.inp.bank)) s

end Sys2Proof.Machine
end

