-- ==== Sys2Proof/Machine/BankMux.lean ====
section
/-! DEFINITION. BMUX, the bank multiplexer (42_bank_multiplexer.md). -/

namespace Sys2Proof.Machine

/-- The concatenation of 256 records, `bank[a] = recs[a div 16][a mod 16]`: no header, delimiter or padding (R28, R70). -/
def bmux (recs : RecordBank) : BankImage :=
  Vector.ofFn fun a : Fin 4096 => recs[tileOfOffset a][byteOfOffset a]

/-- The pseudocode of R70: 256 record-wide writes into an image that starts as any 4096 bytes. -/
def bmuxByWrites (start : BankImage) (recs : RecordBank) : BankImage :=
  (List.finRange 256).foldl (fun k i => memWrite k (16 * i.val) 16 recs[i] (by omega)) start

/-- BMUX: delivers the Bank image of the records at port `recs`; always status OK (R70). -/
def execBmux (s : State) : Host.Outcome State Fault Refusal := deliver (.bank (bmux s.inp.recs)) s

end Sys2Proof.Machine
end

