-- ==== Sys2Proof/Machine/TileDecoder.lean ====
section
/-! DEFINITION. TDEC, the tile bitplane decoder (41_tile_decoder.md). -/

namespace Sys2Proof.Machine

/-- The Tile of a record: row r is `row_dec(rec[r], rec[8 + r])` (R65). -/
def tdec (rec : TileRecord) : Tile :=
  Vector.ofFn fun r : Fin 8 => rowDec rec[recordByte 0 r] rec[recordByte 1 r]

/-- TDEC: delivers the Tile of the record at port `rec`; every 16-byte value is a record, so always status OK (R44, R65). -/
def execTdec (s : State) : Host.Outcome State Fault Refusal := deliver (.tile (tdec s.inp.record)) s

end Sys2Proof.Machine
end

