-- ==== Sys2Proof/Machine/TileEncoder.lean ====
section
/-! DEFINITION. TENC, the tile bitplane encoder (40_tile_encoder.md). -/

namespace Sys2Proof.Machine

/-- The record of a Tile: byte 8·q + r is the plane-q byte of row r, so all of plane 0 comes before all of plane 1 (R24, R60). -/
def tenc (t : Tile) : TileRecord :=
  Vector.ofFn fun k : Fin 16 => planeByte ⟨k.val / 8, by omega⟩ t[k.val % 8]

/-- TENC: delivers the record of the Tile at port `tile`; always status OK (R60). -/
def execTenc (s : State) : Host.Outcome State Fault Refusal := deliver (.record (tenc s.inp.tile)) s

end Sys2Proof.Machine
end

