-- ==== Sys2Proof/Machine/BankCodec.lean ====
section
/-! DEFINITION. The bank-level codec and the admission checks (44_bank_codec.md): BENC, BDEC, ADMIT_TILE, ADMIT_BANK. -/

namespace Sys2Proof.Machine

/-- `BMUX(TENC(tiles[0]), ..., TENC(tiles[255]))` (R82). -/
def benc (tiles : TileBank) : BankImage := bmux (mapVec tenc tiles)

/-- The length check, alone and first, then `TDEC(BDMX(data)[i])` for every i; a wrong length is refused whole (R83, R84). -/
def bdec (data : ByteString) : Except Error TileBank :=
  if h : data.length = Config.bankBytes then .ok (mapVec tdec (bdmx (bankOfBytes data h)))
  else .error (.invalidBankSize Config.bankBytes data.length)

/-- Shape, then values, then the same grid as a Tile (R80, R106). -/
def admitTile (raw : RawTile) : Except Error Tile :=
  if tileShapeOk raw then
    if tileValuesOk raw then .ok (tileOfRaw raw) else .error .invalidPixelValue
  else .error .invalidBitmapShape

/-- Every shape test of the whole bank, then every value, then the same grids as a Tile bank (R81, R106). -/
def admitBank (raw : RawBank) : Except Error TileBank :=
  if bankShapeOk raw then
    if bankValuesOk raw then .ok (tilesOfRaw raw) else .error .invalidPixelValue
  else .error .invalidBitmapShape

/-- BENC: delivers the image of the Tile bank at port `tiles`; always status OK (R82). -/
def execBenc (s : State) : Host.Outcome State Fault Refusal := deliver (.bank (benc s.inp.tiles)) s

/-- BDEC: delivers the 256 Tiles of the byte string at port `data`, or raises InvalidBankSize(4096, LEN) (R83, R105). -/
def execBdec (s : State) : Host.Outcome State Fault Refusal := finish ((bdec s.inp.data).map .tiles) s

/-- ADMIT_TILE: delivers the checked Tile of port `raw`, or raises (R80). -/
def execAdmitTile (s : State) : Host.Outcome State Fault Refusal := finish ((admitTile s.inp.rawTile).map .tile) s

/-- ADMIT_BANK: delivers the checked Tile bank of port `raw`, or raises (R81). -/
def execAdmitBank (s : State) : Host.Outcome State Fault Refusal := finish ((admitBank s.inp.rawBank).map .tiles) s

end Sys2Proof.Machine
end

