-- ==== Sys2Proof/Machine/Flags.lean ====
section
/-! DEFINITION. CORE has no flags or condition codes (10_state.md R12); what takes their place is the status of one operation,
an output of that operation alone (60_exceptions.md R100, R101, R115). -/

namespace Sys2Proof.Machine

/-- The status an operation ends with: OK or one of the three error kinds (R14, R100). -/
inductive Status where
  | ok
  | invalidBitmapShape
  | invalidPixelValue
  | invalidBankSize (expected actual : Nat)
deriving DecidableEq, Repr

/-- The status of an error, with its payload (R100). -/
def Error.status : Error → Status
  | .invalidBitmapShape => .invalidBitmapShape
  | .invalidPixelValue => .invalidPixelValue
  | .invalidBankSize e a => .invalidBankSize e a

/-- The status of a reply: exactly one (R100). -/
def Reply.status : Reply → Status
  | .ok _ => .ok
  | .raised e => e.status

/-- The status delivered to the host; it is not sticky, so there is none unless a reply is being delivered (R12, R18). -/
def Invocation.status (v : Invocation) : Option Status := v.reply.map Reply.status

/-- The 2-bit status code of a bit-level wrapper (R101). -/
def Status.code : Status → BitVec 2
  | .ok => 0b00#2
  | .invalidBitmapShape => 0b01#2
  | .invalidPixelValue => 0b10#2
  | .invalidBankSize _ _ => 0b11#2

/-- Which error kinds an operation can end with (R115; the last column of the table of 10_state.md section 3). -/
def mayRaise : Instr → Error → Bool
  | .tenc, _ => false
  | .tdec, _ => false
  | .bmux, _ => false
  | .bdmx, _ => false
  | .benc, _ => false
  | .bdec, .invalidBitmapShape => false
  | .bdec, .invalidPixelValue => false
  | .bdec, .invalidBankSize _ _ => true
  | .admitTile, .invalidBitmapShape => true
  | .admitTile, .invalidPixelValue => true
  | .admitTile, .invalidBankSize _ _ => false
  | .admitBank, .invalidBitmapShape => true
  | .admitBank, .invalidPixelValue => true
  | .admitBank, .invalidBankSize _ _ => false

end Sys2Proof.Machine
end

