-- ==== Sys2Proof/Machine/Dispatch.lean ====
section
/-! DEFINITION. One arm per operation (30_encoding.md R50). -/

namespace Sys2Proof.Machine

def exec (i : Instr) (s : State) : Host.Outcome State Fault Refusal :=
  match i with
  | .tenc => Sys2Proof.Machine.execTenc s
  | .tdec => Sys2Proof.Machine.execTdec s
  | .bmux => Sys2Proof.Machine.execBmux s
  | .bdmx => Sys2Proof.Machine.execBdmx s
  | .benc => Sys2Proof.Machine.execBenc s
  | .bdec => Sys2Proof.Machine.execBdec s
  | .admitTile => Sys2Proof.Machine.execAdmitTile s
  | .admitBank => Sys2Proof.Machine.execAdmitBank s

end Sys2Proof.Machine
end

