-- ==== Sys2Proof/Machine/Step.lean ====
section
/-! DEFINITION. One step of the machine is one whole operation, from presented inputs to delivered result
(20_memory.md R31, 70_reset_and_hazards.md R123). -/

namespace Sys2Proof.Machine

/-- The operation that `op` selects runs, for one invocation in progress (log 17); with none in progress CORE does nothing by
itself and there is no step (R51, R123, log 3). -/
def step (s : State) : Host.Outcome State Fault Refusal :=
  match s.nextUp with
  | some s' => exec (decode s'.op) s'
  | none => .fault .noInvocation

/-- The host presents the operation that bits 2 to 0 of `w` select, with the inputs that stand on the ports, which an earlier
presentation, by any host, may have put there (log 19); it has the turn (log 17), so the next step runs it. Open invocations stay open (R110). CORE fetches nothing: `op` is an input of the invocation (R35, log 4). -/
def State.withFetchWord (s : State) (nbits w : Nat) : State :=
  { s with op := selectBits nbits w, call := .inProgress, others := s.parked }

end Sys2Proof.Machine
end

