-- ==== Sys2Proof/Machine/FixedWidth.lean ====
section
/-! DEFINITION. The fixed-width rendering of the three inputs that are unbounded in the model (00_scope.md R5, 30_encoding.md R45,
decisions D10 and D11): LEN on LENW bits beside a 4096-byte buffer, a raw tile as counts and 64 values of PIXW bits. The widths are
parameters, arguments of these definitions; the counts stay natural numbers, since the spec gives them no width (log 14). -/

namespace Sys2Proof.Machine

/-- BDEC's port with LEN of `lenw` bits; the buffer is ignored when LEN ≠ 4096 (D10). -/
structure DataPort (lenw : Nat) where
  len : BitVec lenw
  buffer : BankImage
deriving DecidableEq, Repr

/-- The value a LEN port of `lenw` bits shows for a true length: saturating at 2^lenw − 1, so that a length the port cannot hold
is not seen as 4096 (93_implementation_defined.md U8). -/
def lenOnPort (lenw len : Nat) : BitVec lenw := BitVec.ofNat lenw (min len (2 ^ lenw - 1))

/-- BDEC on a fixed-width port (R83, D10). -/
def bdecFixed {lenw : Nat} (p : DataPort lenw) : Except Error TileBank :=
  if p.len.toNat = Config.bankBytes then .ok (mapVec tdec (bdmx p.buffer))
  else .error (.invalidBankSize Config.bankBytes p.len.toNat)

/-- The port presents the byte string: LEN shows its length, and the buffer holds it when it is a whole bank; otherwise the buffer
may hold anything (R124, D10). -/
def DataPort.Presents {lenw : Nat} (p : DataPort lenw) (data : ByteString) : Prop :=
  p.len = lenOnPort lenw data.length ∧ (data.length = Config.bankBytes → p.buffer.toList = data)

/-- A raw tile on a fixed-width port: a row count, eight column counts and 64 values of `pixw` bits (R45, D11). -/
structure RawTilePort (pixw : Nat) where
  rows : Nat
  cols : Vector Nat 8
  values : Vector (Vector (BitVec pixw) 8) 8
deriving DecidableEq, Repr

/-- A raw bank on a fixed-width port: a tile count and 256 raw tiles (R45, D11, log 14). -/
structure RawBankPort (pixw : Nat) where
  count : Nat
  tiles : Vector (RawTilePort pixw) 256
deriving DecidableEq, Repr

/-- Exactly 8 rows of exactly 8 values, from the counts (R80). -/
def RawTilePort.shapeOk {pixw : Nat} (p : RawTilePort pixw) : Bool :=
  decide (p.rows = Config.tileRows) && p.cols.toList.all fun n => decide (n = Config.tileCols)

/-- No value above 3 (R80). -/
def RawTilePort.valuesOk {pixw : Nat} (p : RawTilePort pixw) : Bool :=
  p.values.toList.all fun row => row.toList.all fun v => decide (v.toNat ≤ Config.maxPixel)

/-- The same grid as a Tile, used after both tests (R80). -/
def RawTilePort.tile {pixw : Nat} (p : RawTilePort pixw) : Tile :=
  mapVec (mapVec fun v => BitVec.ofNat 2 v.toNat) p.values

/-- ADMIT_TILE on a fixed-width port (R80, D11). -/
def admitTileFixed {pixw : Nat} (p : RawTilePort pixw) : Except Error Tile :=
  if p.shapeOk then
    if p.valuesOk then .ok p.tile else .error .invalidPixelValue
  else .error .invalidBitmapShape

/-- ADMIT_BANK on a fixed-width port (R81, D11). -/
def admitBankFixed {pixw : Nat} (p : RawBankPort pixw) : Except Error TileBank :=
  if decide (p.count = Config.tilesPerBank) && p.tiles.toList.all RawTilePort.shapeOk then
    if p.tiles.toList.all RawTilePort.valuesOk then .ok (mapVec RawTilePort.tile p.tiles) else .error .invalidPixelValue
  else .error .invalidBitmapShape

/-- A value wider than the port saturates, so that it is not truncated into 0..3 (R124 (d)). -/
def valueOnPort (pixw v : Nat) : BitVec pixw := BitVec.ofNat pixw (min v (2 ^ pixw - 1))

/-- The port presents a raw tile: the counts are those of its rows, and where a grid position exists the value there is shown;
counts and values of positions that do not exist may be anything (R45, R124, D11). -/
def RawTilePort.Presents {pixw : Nat} (p : RawTilePort pixw) (raw : RawTile) : Prop :=
  p.rows = raw.length ∧
  (∀ (r : Fin 8) (row : List Nat), raw[r.val]? = some row →
    p.cols[r] = row.length ∧ ∀ (c : Fin 8) (v : Nat), row[c.val]? = some v → p.values[r][c] = valueOnPort pixw v)

/-- The port presents a raw bank: the tile count, and each of the first 256 tiles on its own sub-port (D11). -/
def RawBankPort.Presents {pixw : Nat} (p : RawBankPort pixw) (raw : RawBank) : Prop :=
  p.count = raw.length ∧ ∀ (i : Fin 256) (t : RawTile), raw[i.val]? = some t → p.tiles[i].Presents t

end Sys2Proof.Machine
end

