-- ==== Sys2Proof/Machine/Flat.lean ====
section
/-! DEFINITION. The ports as flat bit vectors (10_state.md R15): element k of width w in bits w·k + w − 1 down to w·k, element 0 at
the least significant end. No data-path rule uses these. -/

namespace Sys2Proof.Machine

/-- Elements of width w packed little end first by index (R15). -/
def pack {w n : Nat} (v : Vector (BitVec w) n) : BitVec (w * n) :=
  BitVec.ofNat (w * n) (v.toList.foldr (fun x rest => x.toNat + 2 ^ w * rest) 0)

/-- The elements of a packed vector (R15). -/
def unpack (w n : Nat) (x : BitVec (w * n)) : Vector (BitVec w) n :=
  Vector.ofFn fun k : Fin n => x.extractLsb' (w * k.val) w

/-- Byte k of a Tile record at bits 8k + 7 down to 8k (R15). -/
def flatRecord (r : TileRecord) : BitVec 128 := pack r

/-- Pixel p = 8r + c of a Tile at bits 2p + 1 down to 2p (R15). -/
def flatTile (t : Tile) : BitVec 128 := pack (pixels t)

/-- Byte a of a Bank image at bits 8a + 7 down to 8a (R15). -/
def flatBank (k : BankImage) : BitVec 32768 := pack k

/-- Record i of a Record bank at bits 128i + 127 down to 128i (R15). -/
def flatRecs (rs : RecordBank) : BitVec 32768 := pack (mapVec flatRecord rs)

/-- Tile i of a Tile bank at bits 128i + 127 down to 128i (R15). -/
def flatTiles (ts : TileBank) : BitVec 32768 := pack (mapVec flatTile ts)

/-- The Tile record that a flat port carries (R15). -/
def recordOfFlat (x : BitVec 128) : TileRecord := unpack 8 16 x

/-- The Tile that a flat port carries (R15). -/
def tileOfFlat (x : BitVec 128) : Tile := tileOfPixels (unpack 2 64 x)

/-- The Bank image that a flat port carries (R15). -/
def bankOfFlat (x : BitVec 32768) : BankImage := unpack 8 4096 x

/-- The Record bank that a flat port carries (R15). -/
def recsOfFlat (x : BitVec 32768) : RecordBank := mapVec recordOfFlat (unpack 128 256 x)

/-- The Tile bank that a flat port carries (R15). -/
def tilesOfFlat (x : BitVec 32768) : TileBank := mapVec tileOfFlat (unpack 128 256 x)

end Sys2Proof.Machine
end

