-- ==== Sys2Proof/Machine/HostPort.lean ====
section
/-! DEFINITION. The host's side of an invocation (70_reset_and_hazards.md section 3): presenting an operation with an input of its
own domain, running it, and taking what it delivers. The host's duties hold by construction (R124, R126, log 13): LEN is the
length of what is presented, inputs do not change during the one step, and raw data has no port but the admission checks'. -/

namespace Sys2Proof.Machine

/-- An operation with an input of its domain; another pairing cannot be written (30_encoding.md R52). -/
inductive Request where
  | tenc (t : Tile)
  | tdec (r : TileRecord)
  | bmux (rs : RecordBank)
  | bdmx (k : BankImage)
  | benc (ts : TileBank)
  | bdec (b : ByteString)
  | admitTile (raw : RawTile)
  | admitBank (raw : RawBank)
deriving DecidableEq, Repr

/-- The operation a request names. -/
def Request.instr : Request → Instr
  | .tenc _ => .tenc
  | .tdec _ => .tdec
  | .bmux _ => .bmux
  | .bdmx _ => .bdmx
  | .benc _ => .benc
  | .bdec _ => .bdec
  | .admitTile _ => .admitTile
  | .admitBank _ => .admitBank

/-- The input ports with a request's input on its operation's port; the other ports keep what they carry (log 19). -/
def Request.drive (q : Request) (inp : Inputs) : Inputs :=
  match q with
  | .tenc t => { inp with tile := t }
  | .tdec r => { inp with record := r }
  | .bmux rs => { inp with recs := rs }
  | .bdmx k => { inp with bank := k }
  | .benc ts => { inp with tiles := ts }
  | .bdec b => { inp with data := b }
  | .admitTile raw => { inp with rawTile := raw }
  | .admitBank raw => { inp with rawBank := raw }

/-- The request an invocation stands for: its operation on its own input. -/
def Invocation.request (v : Invocation) : Request :=
  match decode v.op with
  | .tenc => .tenc v.inp.tile
  | .tdec => .tdec v.inp.record
  | .bmux => .bmux v.inp.recs
  | .bdmx => .bdmx v.inp.bank
  | .benc => .benc v.inp.tiles
  | .bdec => .bdec v.inp.data
  | .admitTile => .admitTile v.inp.rawTile
  | .admitBank => .admitBank v.inp.rawBank

/-- A request presented by host `h`: its select code and its input, together (R51, R123). -/
def Request.presented (h : Nat) (q : Request) (inp : Inputs) : Invocation :=
  { host := h, op := encode q.instr, inp := q.drive inp, call := .inProgress }

/-- Host `h` presents a request to the instance, whatever else is in progress there: every open invocation, of this host or another,
stays open with its own inputs (R33, R110, R113, R126). That the new one has the turn is a DESIGN CHOICE (log 17): the spec gives
operations in progress at once no order. So is what its other ports carry, the values on the ports of the invocation that had the
turn, whichever host's (log 19): the spec gives a port of another operation no value, and this one reads its own port alone. -/
def State.present (h : Nat) (q : Request) (s : State) : State :=
  { toInvocation := q.presented h s.inp, others := s.parked }

/-- One invocation: the host presents the request and the machine takes its one step (R123). -/
def State.invoke (h : Nat) (q : Request) (s : State) : Host.Outcome State Fault Refusal := step (s.present h q)

/-- What has been delivered to host `h` and not closed by it: each reply with the request it answers (R104). -/
def State.repliesTo (h : Nat) (s : State) : List (Request × Reply) :=
  s.invocations.filterMap fun v => if v.host = h then v.reply.map fun r => (v.request, r) else none

/-- The invocation is delivered to host `h`. -/
def Invocation.deliveredTo (h : Nat) (v : Invocation) : Bool := decide (v.host = h) && v.reply.isSome

/-- Host `h` has taken what was delivered to it: those invocations are open no more. How long a host may look at a delivered value is
not stated by the spec. DESIGN CHOICE (log 9). -/
def State.close (h : Nat) (s : State) : State :=
  { toInvocation := if s.toInvocation.deliveredTo h then { s.toInvocation with call := .idle } else s.toInvocation
    others := s.others.filter fun v => !v.deliveredTo h }

end Sys2Proof.Machine
end

