-- ==== Sys2Proof/Machine/HostProgram.lean ====
section
/-! DEFINITION. Running a host program in the notation of 30_encoding.md R54. Position, variables and labels are host state (R11);
CORE's part of a line is one invocation. -/

namespace Sys2Proof.Machine

/-- The request that invokes operation `i` on a value; none when the value is not of the operation's domain, which the spec
refuses by typing (R52, log 15). A Bank image is taken as the byte string of its 4096 bytes by BDEC, and a byte string of 4096 bytes
as the Bank image by BDMX, as 45_laws.md R92 and 30_encoding.md R55 write them without a conversion. DESIGN CHOICE (log 18). -/
def requestOf (i : Instr) (v : HostValue) : Option Request :=
  match i, v with
  | .tenc, .tile t => some (.tenc t)
  | .tdec, .record r => some (.tdec r)
  | .bmux, .recs rs => some (.bmux rs)
  | .bdmx, .bank k => some (.bdmx k)
  | .bdmx, .data b => if h : b.length = Config.bankBytes then some (.bdmx (bankOfBytes b h)) else none
  | .benc, .tiles ts => some (.benc ts)
  | .bdec, .data b => some (.bdec b)
  | .bdec, .bank k => some (.bdec k.toList)
  | .admitTile, .rawTile raw => some (.admitTile raw)
  | .admitBank, .rawBank raw => some (.admitBank raw)
  | _, _ => none

/-- The value a delivered output is bound as. -/
def Output.value : Output → HostValue
  | .record r => .record r
  | .tile t => .tile t
  | .bank k => .bank k
  | .recs rs => .recs rs
  | .tiles ts => .tiles ts

/-- Element i of a bank: `recs[i]`, `tb[i]`, `raw[i]` (10_state.md R14, log 21). -/
def elementOf (v : HostValue) (i : Nat) : Option HostValue :=
  match v with
  | .recs rs => rs[i]?.map .record
  | .tiles ts => ts[i]?.map .tile
  | .rawBank raw => raw[i]?.map .rawTile
  | .tile _ => none
  | .record _ => none
  | .bank _ => none
  | .data _ => none
  | .rawTile _ => none
  | .truth _ => none

/-- The Tile record a value is, if it is one. -/
def asRecord : HostValue → Option TileRecord
  | .record r => some r
  | _ => none

/-- The Tile a value is, if it is one. -/
def asTile : HostValue → Option Tile
  | .tile t => some t
  | _ => none

/-- The vector of exactly n elements that a list is. -/
def vectorOf {α : Type} (n : Nat) (l : List α) : Option (Vector α n) :=
  if h : l.length = n then some ⟨l.toArray, by simpa using h⟩ else none

/-- The bank of 256 Tile records, or of 256 Tiles, in order (R55, log 21). -/
def bankOfValues (vs : List HostValue) : Option HostValue :=
  ((vs.mapM asRecord).bind (vectorOf 256)).map .recs <|> ((vs.mapM asTile).bind (vectorOf 256)).map .tiles

/-- The value of a source; none when a variable is unbound or the value has no such element. -/
def sourceValue (src : HostOperand) (env : HostEnv) : Option HostValue :=
  match src with
  | .var x => env.lookup x
  | .elem x i => (env.lookup x).bind (elementOf · i)
  | .tuple xs => (xs.mapM fun x => env.lookup x).bind bankOfValues

/-- The encoding of a program: the `op` codes of its lines of forms (a) and (b), in order, as R54 says it. 95_test_vectors.md 3.6
prints for a program that ends early the codes of the invoked lines alone; those are `invokedCodes`. DESIGN CHOICE (log 20). -/
def programCodes (p : HostProgram) : List (BitVec 3) :=
  p.filterMap fun st => match st.line with
    | .invoke _ i _ _ => some (encode i)
    | .host _ _ => none

/-- The host and the CORE it uses, between two lines. -/
structure HostState where
  host : Nat
  env : HostEnv
  pos : Nat
  core : State
deriving DecidableEq, Repr

/-- Why a host program has ended. -/
inductive HostEnd where
  /-- The last line is done (R128). -/
  | finished
  /-- An invocation without `? label` raised: "the program ends at that line with that status" (R54). -/
  | raised (e : Error)
  /-- The line is not one R54 gives a meaning: an unbound or bound-twice variable, an operand of the wrong domain, or a label
  that marks no line. -/
  | notAProgram
deriving DecidableEq, Repr

/-- What one line leads to. -/
inductive HostStep where
  | running (h : HostState)
  | ended (h : HostState) (why : HostEnd)
deriving DecidableEq, Repr

/-- Bind a new variable and go on at the next line; "a host variable is bound once and never changed" (R54). -/
def HostState.bind (h : HostState) (dst : Nat) (v : HostValue) : HostStep :=
  match h.env.lookup dst with
  | some _ => .ended h .notAProgram
  | none => .running { h with env := (dst, v) :: h.env, pos := h.pos + 1 }

/-- Continue at the line marked with a label (R54). Where two lines carry it, at the first of them: R54 says only "the line marked
`label:`", and `HostProgram.wellFormed` refuses such a program. DESIGN CHOICE (log 23). -/
def HostState.goto (h : HostState) (p : HostProgram) (l : Nat) : HostStep :=
  match p.findIdx? (fun st => decide (st.label = some l)) with
  | some n => .running { h with pos := n }
  | none => .ended h .notAProgram

/-- What the host does with a reply: bind the output, branch on the error, or end with it (R54, R104, R109). -/
def HostState.take (h : HostState) (p : HostProgram) (dst : Nat) (onError : Option Nat) (r : Reply) : HostStep :=
  match r with
  | .ok out => h.bind dst out.value
  | .raised e =>
    match onError with
    | none => .ended h (.raised e)
    | some l => h.goto p l

/-- One line of a host program. -/
def hostStep (p : HostProgram) (h : HostState) : HostStep :=
  match p[h.pos]? with
  | none => .ended h .finished
  | some st =>
    match st.line with
    | .host dst value => h.bind dst (value h.env)
    | .invoke dst i src onError =>
      match (sourceValue src h.env).bind (requestOf i) with
      | none => .ended h .notAProgram
      | some q =>
        match h.core.invoke h.host q with
        | .fault _ => .ended h .notAProgram
        | .refused _ => .ended h .notAProgram
        | .next c =>
          match c.reply with
          | none => .ended h .notAProgram
          | some r => ({ h with core := c } : HostState).take p dst onError r

/-- At most `fuel` lines of a host program. -/
def hostRun (p : HostProgram) : Nat → HostState → HostStep
  | 0, h => .running h
  | fuel + 1, h =>
    match hostStep p h with
    | .running h' => hostRun p fuel h'
    | .ended h' why => .ended h' why

/-- The `op` code that the next line of a host program invokes, if it invokes one. -/
def HostState.codeAt (h : HostState) (p : HostProgram) : Option (BitVec 3) :=
  match p[h.pos]? with
  | none => none
  | some st =>
    match st.line with
    | .host _ _ => none
    | .invoke _ i src _ => ((sourceValue src h.env).bind (requestOf i)).map fun q => encode q.instr

/-- The `op` codes that at most `fuel` lines of a run invoke, in order (95_test_vectors.md section 3, log 20). -/
def invokedCodes (p : HostProgram) : Nat → HostState → List (BitVec 3)
  | 0, _ => []
  | fuel + 1, h =>
    (h.codeAt p).toList ++ match hostStep p h with
      | .running h' => invokedCodes p fuel h'
      | .ended _ _ => []

/-- A host, by its number, before its first line. -/
def HostState.start (host : Nat) (core : State) : HostState := { host := host, env := [], pos := 0, core := core }

end Sys2Proof.Machine
end

