-- ==== Sys2Proof/Machine/PseudoOps.lean ====
section
/-! DEFINITION. The document's own entry points as chains of invocations (30_encoding.md R55, 44_bank_codec.md R85). The host says
which chain it means; CORE never guesses from the shape of the data. -/

namespace Sys2Proof.Machine

/-- `encode_one(t)`: TENC (R55). -/
def State.encodeOne (h : Nat) (t : Tile) (s : State) : Host.Outcome State Fault Refusal := s.invoke h (.tenc t)

/-- `decode_one(rec)`: TDEC (R55). -/
def State.decodeOne (h : Nat) (r : TileRecord) (s : State) : Host.Outcome State Fault Refusal := s.invoke h (.tdec r)

/-- `decode(bank_bytes)`: BDEC (R55). -/
def State.decodeBank (h : Nat) (data : ByteString) (s : State) : Host.Outcome State Fault Refusal := s.invoke h (.bdec data)

/-- The second invocation of host h's chain: it takes the output of the first, and an error ends the chain (R84, R126). -/
def thenInvoke (h : Nat) (next : Output → Option Request) (o : Host.Outcome State Fault Refusal) : Host.Outcome State Fault Refusal :=
  match o with
  | .fault f => .fault f
  | .refused r => .refused r
  | .next s =>
    match s.reply with
    | none => .next s
    | some (.raised _) => .next s
    | some (.ok out) =>
      match next out with
      | none => .next s
      | some q => s.invoke h q

/-- The request that encodes what an admission check has delivered: TENC for a Tile, BENC for a Tile bank (R55). -/
def encodeRequest : Output → Option Request
  | .tile t => some (.tenc t)
  | .tiles ts => some (.benc ts)
  | .record _ => none
  | .bank _ => none
  | .recs _ => none

/-- `encode(tile)` on a single raw tile: ADMIT_TILE, then TENC (R55, R85). -/
def State.encodeTile (h : Nat) (raw : RawTile) (s : State) : Host.Outcome State Fault Refusal :=
  thenInvoke h encodeRequest (s.invoke h (.admitTile raw))

/-- `encode(tiles)` on a full raw bank: ADMIT_BANK, then BENC (R55, R85). -/
def State.encodeBank (h : Nat) (raw : RawBank) (s : State) : Host.Outcome State Fault Refusal :=
  thenInvoke h encodeRequest (s.invoke h (.admitBank raw))

end Sys2Proof.Machine
end

