-- ==== Sys2Proof/Machine/System.lean ====
section
/-! DEFINITION. Any number of CORE instances with any number of hosts (20_memory.md R33, 60_exceptions.md R113). An instance is a
`State` with all its open invocations; a schedule, as plain data, says which instance is acted on next and how (log 11). -/

namespace Sys2Proof.Machine

/-- What can happen at one instance. -/
inductive Action where
  /-- A host presents a request, whatever is in progress. -/
  | present (h : Nat) (q : Request)
  /-- The turn goes to another open invocation, so that operations in progress at once are performed in any order (log 17). -/
  | turn (k : Nat)
  /-- The instance performs one operation. -/
  | run
  /-- A host closes what was delivered to it (log 9). -/
  | close (h : Nat)
  /-- Reset is applied. -/
  | reset
deriving DecidableEq, Repr

/-- An action on an instance. A request presented while others are in progress is one more invocation, and none is dropped (R33,
R110); which of them a run performs is a DESIGN CHOICE that a turn can change (log 17). An instance with no invocation in progress
performs nothing (R123). -/
def Action.apply (a : Action) (s : State) : State :=
  match a with
  | .present h q => s.present h q
  | .turn k => s.focus k
  | .run =>
    match step s with
    | .next s' => s'
    | .fault _ => s
    | .refused _ => s
  | .close h => s.close h
  | .reset => s.applyReset

/-- The request an action presents, with its host. -/
def Action.presented : Action → Option (Nat × Request)
  | .present h q => some (h, q)
  | .turn _ => none
  | .run => none
  | .close _ => none
  | .reset => none

/-- The actions that end no open invocation: all but reset and a host's closing of its own. -/
def Action.keeps : Action → Bool
  | .present _ _ => true
  | .turn _ => true
  | .run => true
  | .close _ => false
  | .reset => false

/-- An action at instance number `core`. -/
structure Event where
  core : Nat
  action : Action
deriving DecidableEq, Repr

/-- The instances in use; instances share nothing and their numbers are only the model's way to name them (R113). -/
abbrev System := List State

/-- One event: only its own instance is touched. -/
def System.apply (sys : System) (e : Event) : System := sys.modify e.core e.action.apply

/-- An interleaving of events, first event first. -/
def System.run (sys : System) (events : List Event) : System := events.foldl System.apply sys

/-- The actions of a schedule at one instance, in order. -/
def actionsAt (core : Nat) (events : List Event) : List Action :=
  (events.filter fun e => e.core == core).map (·.action)

/-- An instance by itself: its own actions in order. -/
def State.runAlone (s : State) (actions : List Action) : State := actions.foldl (fun s a => a.apply s) s

/-- Whose an invocation is and what it asks. -/
def Invocation.asked (v : Invocation) : Nat × Request := (v.host, v.request)

/-- Whose an invocation is, what it asks, and its reply once it is delivered. -/
def Invocation.outcome (v : Invocation) : Nat × Request × Option Reply := (v.host, v.request, v.reply)

/-- Every call presented at once, and then as many operations performed. -/
def concurrently (calls : List (Nat × Request)) : List Action :=
  (calls.map fun c => .present c.1 c.2) ++ List.replicate calls.length .run

/-- Every call presented and performed before the next one is presented. -/
def sequentially (calls : List (Nat × Request)) : List Action :=
  calls.flatMap fun c => [.present c.1 c.2, .run]

end Sys2Proof.Machine
end

