-- ==== Sys2Proof/Safety.lean ====
section
/-! DEFINITION. What counts as a right reply and a safe run, in the words of the rules and not of the model's functions: the relation
between an operation's inputs and its reply, bit by bit (40_tile_encoder.md R60, 41 R65, 42 R70, 43 R75, 44 R80 to R83). -/

namespace Sys2Proof.Safety

open Sys2Proof.Machine

/-- `rec[8·q + r][7 − c] = t[r][c][q]` (R24, R60): the record of a Tile. -/
def IsRecordOf (rec : TileRecord) (t : Tile) : Prop :=
  ∀ (q : Fin 2) (r c : Fin 8), rec[8 * q.val + r.val].getLsbD (7 - c.val) = t[r][c].getLsbD q.val

/-- `t[r][c] = rec[r][7 − c] + 2·rec[8 + r][7 − c]` (R65): the Tile of a record. -/
def IsTileOf (t : Tile) (rec : TileRecord) : Prop :=
  ∀ r c : Fin 8, t[r][c].toNat =
    (rec[r.val].getLsbD (7 - c.val)).toNat + 2 * (rec[8 + r.val].getLsbD (7 - c.val)).toNat

/-- `bank[16·i + k] = recs[i][k]` (R26, R27, R70, R75): an image and its records. -/
def IsImageOf (bank : BankImage) (recs : RecordBank) : Prop :=
  ∀ (i : Fin 256) (k : Fin 16), bank[16 * i.val + k.val] = recs[i][k]

/-- Byte a of the image is `bytes` at a, and `tiles[i][r][c] = data[16·i + r][7 − c] + 2·data[16·i + 8 + r][7 − c]` (R83). -/
def AreTilesOf (tiles : TileBank) (data : ByteString) (h : data.length = 4096) : Prop :=
  ∀ (i : Fin 256) (r c : Fin 8), tiles[i][r][c].toNat =
    (data[16 * i.val + r.val].getLsbD (7 - c.val)).toNat + 2 * (data[16 * i.val + 8 + r.val].getLsbD (7 - c.val)).toNat

/-- `bank[16·i + 8·q + r][7 − c] = tiles[i][r][c][q]` (R82). -/
def IsImageOfTiles (bank : BankImage) (tiles : TileBank) : Prop :=
  ∀ (i : Fin 256) (q : Fin 2) (r c : Fin 8),
    bank[16 * i.val + 8 * q.val + r.val].getLsbD (7 - c.val) = tiles[i][r][c].getLsbD q.val

/-- Exactly 8 rows of exactly 8 values (R80, R102). -/
def TileShape (raw : RawTile) : Prop := raw.length = 8 ∧ ∀ row ∈ raw, row.length = 8

/-- Every value in 0..3 (R80, R103). -/
def TileValues (raw : RawTile) : Prop := ∀ row ∈ raw, ∀ v ∈ row, v ≤ 3

/-- Exactly 256 tiles of the right shape (R81, R102). -/
def BankShape (raw : RawBank) : Prop := raw.length = 256 ∧ ∀ t ∈ raw, TileShape t

/-- Every value of every tile in 0..3 (R81, R103). -/
def BankValues (raw : RawBank) : Prop := ∀ t ∈ raw, TileValues t

/-- `t[r][c] = raw[r][c]` (R80): the Tile holds the same grid of numbers. -/
def IsGridOf (t : Tile) (raw : RawTile) : Prop := t.toList.map (fun row => row.toList.map BitVec.toNat) = raw

/-- `tiles[i][r][c] = raw[i][r][c]`, tile order kept (R81). -/
def AreGridsOf (tiles : TileBank) (raw : RawBank) : Prop :=
  tiles.toList.map (fun t => t.toList.map (fun row => row.toList.map BitVec.toNat)) = raw

/-- The replies an operation may give on given inputs, by its rule. In the admission checks shape comes before value, the spec's
decision D8 (R106, log 8). -/
def Conforms (i : Instr) (inp : Inputs) (reply : Reply) : Prop :=
  match i with
  | .tenc => ∃ rec, reply = .ok (.record rec) ∧ IsRecordOf rec inp.tile
  | .tdec => ∃ t, reply = .ok (.tile t) ∧ IsTileOf t inp.record
  | .bmux => ∃ bank, reply = .ok (.bank bank) ∧ IsImageOf bank inp.recs
  | .bdmx => ∃ recs, reply = .ok (.recs recs) ∧ IsImageOf inp.bank recs
  | .benc => ∃ bank, reply = .ok (.bank bank) ∧ IsImageOfTiles bank inp.tiles
  | .bdec =>
    (∃ (h : inp.data.length = 4096) (tiles : TileBank), reply = .ok (.tiles tiles) ∧ AreTilesOf tiles inp.data h) ∨
    (inp.data.length ≠ 4096 ∧ reply = .raised (.invalidBankSize 4096 inp.data.length))
  | .admitTile =>
    (TileShape inp.rawTile ∧ TileValues inp.rawTile ∧ ∃ t, reply = .ok (.tile t) ∧ IsGridOf t inp.rawTile) ∨
    (TileShape inp.rawTile ∧ ¬ TileValues inp.rawTile ∧ reply = .raised .invalidPixelValue) ∨
    (¬ TileShape inp.rawTile ∧ reply = .raised .invalidBitmapShape)
  | .admitBank =>
    (BankShape inp.rawBank ∧ BankValues inp.rawBank ∧ ∃ ts, reply = .ok (.tiles ts) ∧ AreGridsOf ts inp.rawBank) ∨
    (BankShape inp.rawBank ∧ ¬ BankValues inp.rawBank ∧ reply = .raised .invalidPixelValue) ∨
    (¬ BankShape inp.rawBank ∧ reply = .raised .invalidBitmapShape)

/-- The invariant of a run: whatever is delivered, of every invocation of the instance, is the reply that the rule of its selected
operation gives for its own inputs; before delivery no output has a value (R7, R17, R18, R104). -/
def DeliveredConforms (s : State) : Prop :=
  ∀ v ∈ s.invocations, ∀ reply, v.reply = some reply → Conforms (decode v.op) v.inp reply

/-- The reply a request gets alone, on an instance right after reset, whichever host invokes it (R33). -/
def IsOwnReply (q : Request) (reply : Reply) : Prop :=
  ∀ h : Nat, ∃ u, State.reset.invoke h q = .next u ∧ u.reply = some reply

/-- A reply, where the invocation has one, is the one its request gets alone; its host's number plays no part (R33). -/
def OwnReply (v : Invocation) : Prop := ∀ reply, v.reply = some reply → IsOwnReply v.request reply

end Sys2Proof.Safety
end

