-- ==== Sys2Proof/Certificates/Slice0/Obligations.lean ====
section
/-! DEFINITION. The statements for the provers, each with the rule or section of spec/ it formalises. -/

open Sys2Proof Sys2Proof.Machine Sys2Proof.Safety

/-! ### The select word and the step -/

/-- 30_encoding.md section 5 (the codes are the spec's decision D4): the select word of each operation. -/
def Obligations.SelectWordsDecodeToTheirOperations : Prop :=
  decode 0b000#3 = .tenc ∧ decode 0b001#3 = .tdec ∧ decode 0b010#3 = .bmux ∧ decode 0b011#3 = .bdmx ∧
  decode 0b100#3 = .benc ∧ decode 0b101#3 = .bdec ∧ decode 0b110#3 = .admitTile ∧ decode 0b111#3 = .admitBank

/-- 30_encoding.md section 5: all eight codes are assigned, each to one operation, so decoding and encoding are inverse. -/
def Obligations.SelectDecodeAndEncodeAgree : Prop :=
  (∀ i : Instr, i.wellFormed = true → decode (encode i) = i) ∧ (∀ op : BitVec 3, encode (decode op) = op)

/-- 30_encoding.md section 5: bit 2 marks composites and admission checks; in codes 0 to 5 bit 0 clear is the encode direction;
in codes 0 to 3 bit 1 set is bank framing. -/
def Obligations.SelectBitsSortTheOperations : Prop :=
  ∀ op : BitVec 3,
    (op.getLsbD 2 = true ↔ decode op ∈ [Instr.benc, .bdec, .admitTile, .admitBank]) ∧
    (op.toNat ≤ 5 → (op.getLsbD 0 = false ↔ decode op ∈ [Instr.tenc, .bmux, .benc])) ∧
    (op.toNat ≤ 3 → (op.getLsbD 1 = true ↔ decode op ∈ [Instr.bmux, .bdmx]))

/-- The model's choice of log 5: of a word of at least three bits only bits 2 to 0 are read, as the table's mask 0x7 says. -/
def Obligations.TableWordIsReadInItsLowThreeBits : Prop :=
  ∀ nbits w : Nat, 3 ≤ nbits → decodeTableWord nbits w = some (decode (BitVec.ofNat 3 w)) ∧
    decodeTableWord nbits w = decodeTableWord nbits (w % 8)

/-- 70_reset_and_hazards.md section 3, 30_encoding.md section 5: a step is the selected operation of an invocation in progress on its
own inputs, of the one with the turn if it is in progress and else of the first other one (that order is the model's choice,
log 17); presenting a select word (log 4) gives it the turn, changes no input, and keeps every open invocation. -/
def Obligations.StepRunsTheSelectedOperation : Prop :=
  (∀ s : State, s.call = .inProgress → step s = exec (decode s.op) s) ∧
  (∀ (s : State) (k : Nat), s.call ≠ .inProgress → s.others.findIdx? Invocation.inProgress = some k →
    step s = exec (decode (s.focus k).op) (s.focus k) ∧ some (s.focus k).toInvocation = s.others[k]?) ∧
  (∀ (s : State) (nbits w : Nat) (i : Instr), decodeTableWord nbits w = some i →
    step (s.withFetchWord nbits w) = exec i (s.withFetchWord nbits w) ∧ (s.withFetchWord nbits w).inp = s.inp ∧
    ∀ v ∈ s.live, v ∈ (s.withFetchWord nbits w).live)

/-- 70_reset_and_hazards.md section 3, "CORE never acts on its own"; that the model has no step there is its choice (log 3). With
any invocation in progress there is a step. -/
def Obligations.NoStepWithoutAnInvocation : Prop :=
  ∀ s : State,
    ((∀ v ∈ s.invocations, v.call ≠ .inProgress) → step s = .fault .noInvocation) ∧
    ((∃ v ∈ s.invocations, v.call = .inProgress) → ∃ t, step s = .next t)

/-- 70_reset_and_hazards.md section 4: an invocation with the turn ends in one step with one complete reply; every invocation in
progress ends within as many steps as there are in progress; and a delivered one is never delivered again. -/
def Obligations.EveryInvocationEndsAndDeliversOnce : Prop :=
  (∀ s : State, s.call = .inProgress → ∃ reply, step s = .next { s with call := .delivered reply }) ∧
  (∀ s : State, ∀ v ∈ s.invocations, v.call = .inProgress →
    ∃ reply, { v with call := .delivered reply } ∈ (s.runAlone (List.replicate s.inProgressCount .run)).invocations) ∧
  (∀ s t : State, step s = .next t →
    t.inProgressCount + 1 = s.inProgressCount ∧ ∀ v ∈ s.invocations, v.call ≠ .inProgress → v ∈ t.invocations)

/-! ### Pixels, rows, addresses -/

/-- R40: the two plane bits of a pixel and the pixel of two plane bits. -/
def Obligations.PixelIsItsTwoPlaneBits : Prop :=
  (∀ v : Pixel, (plane0Bit v).toNat = v.toNat &&& 1 ∧ (plane1Bit v).toNat = (v.toNat >>> 1) &&& 1 ∧
    v.toNat = (plane0Bit v).toNat + 2 * (plane1Bit v).toNat ∧
    assemble (planeBit 0 v) (planeBit 1 v) = v) ∧
  (∀ b0 b1 : Bool, (assemble b0 b1).toNat = b0.toNat + 2 * b1.toNat ∧
    planeBit 0 (assemble b0 b1) = b0 ∧ planeBit 1 (assemble b0 b1) = b1)

/-- 30_encoding.md section 2, bit by bit and as sums: `row_enc` puts column c in bit 7 − c of each plane byte. -/
def Obligations.RowEncodePacksLeftmostColumnHighest : Prop :=
  ∀ w : Row,
    (∀ c : Fin 8, (rowEnc w).1.getLsbD (7 - c.val) = w[c].getLsbD 0 ∧ (rowEnc w).2.getLsbD (7 - c.val) = w[c].getLsbD 1) ∧
    (rowEnc w).1.toNat = ∑ c : Fin 8, (w[c].toNat &&& 1) * 2 ^ (7 - c.val) ∧
    (rowEnc w).2.toNat = ∑ c : Fin 8, ((w[c].toNat >>> 1) &&& 1) * 2 ^ (7 - c.val)

/-- 30_encoding.md section 2: `row_dec` as shifts of the two bytes, and the two row functions are inverse. -/
def Obligations.RowDecodeReadsLeftmostColumnHighest : Prop :=
  (∀ (p0 p1 : Byte) (c : Fin 8), (rowDec p0 p1)[c].toNat =
    ((p0.toNat >>> (7 - c.val)) &&& 1) + 2 * ((p1.toNat >>> (7 - c.val)) &&& 1)) ∧
  (∀ p0 p1 : Byte, rowEnc (rowDec p0 p1) = (p0, p1)) ∧
  (∀ w : Row, rowDec (rowEnc w).1 (rowEnc w).2 = w)

/-- 20_memory.md section 5: offset 16·i + 8·q + r belongs to tile i, plane q, row r, and the map is one to one both ways. -/
def Obligations.BankAddressMapIsOneToOne : Prop :=
  (∀ (i : Fin 256) (q : Fin 2) (r : Fin 8), (bankOffset i q r).val = 16 * i.val + 8 * q.val + r.val ∧
    tileOfOffset (bankOffset i q r) = i ∧ planeOfOffset (bankOffset i q r) = q ∧ rowOfOffset (bankOffset i q r) = r) ∧
  (∀ a : Fin 4096, bankOffset (tileOfOffset a) (planeOfOffset a) (rowOfOffset a) = a ∧
    (tileOfOffset a).val = a.val >>> 4 ∧ (planeOfOffset a).val = (a.val >>> 3) &&& 1 ∧ (rowOfOffset a).val = a.val &&& 7)

/-- 20_memory.md section 7: what a read returns, and that a write replaces its own bytes and leaves every other byte alone. -/
def Obligations.BankReadAndWriteLaws : Prop :=
  ∀ (k : BankImage) (a n : Nat) (v : Vector Byte n) (h : a + n ≤ 4096),
    (∀ j : Fin n, (memRead k a n h)[j] = k[a + j.val]) ∧
    memRead (memWrite k a n v h) a n h = v ∧
    memWrite k a n (memRead k a n h) h = k ∧
    (∀ (b : Nat) (hb : b < 4096), b < a ∨ a + n ≤ b → (memWrite k a n v h)[b] = k[b])

/-! ### The operations: what each delivers, and that it changes nothing else

The first clause of each is its rule's select code, whose number is the spec's own choice (decision D4). The next state is written
out, so each statement says at once that the operation completes, what it delivers, and that nothing else of the interface
changes. -/

/-- R60: TENC completes in every state with the record whose bit 7 − c of byte 8·q + r is bit q of pixel (r, c); as sums too. -/
def Obligations.TencDeliversTheRecord : Prop :=
  encode .tenc = 0#3 ∧
  ∀ s : State, ∃ rec : TileRecord,
    exec .tenc s = .next { s with call := .delivered (.ok (.record rec)) } ∧
    IsRecordOf rec s.inp.tile ∧
    ∀ r : Fin 8,
      rec[r.val].toNat = ∑ c : Fin 8, (s.inp.tile[r][c].toNat &&& 1) * 2 ^ (7 - c.val) ∧
      rec[8 + r.val].toNat = ∑ c : Fin 8, ((s.inp.tile[r][c].toNat >>> 1) &&& 1) * 2 ^ (7 - c.val)

/-- R65: TDEC completes in every state with the Tile whose pixel (r, c) is bit 7 − c of byte r plus twice that of byte 8 + r. -/
def Obligations.TdecDeliversTheTile : Prop :=
  encode .tdec = 1#3 ∧
  ∀ s : State, ∃ t : Tile,
    exec .tdec s = .next { s with call := .delivered (.ok (.tile t)) } ∧
    IsTileOf t s.inp.record ∧
    (∀ r c : Fin 8, (pixels t)[8 * r.val + c.val] = t[r][c] ∧
      t[r][c].toNat = ((s.inp.record[r.val].toNat >>> (7 - c.val)) &&& 1) +
        2 * ((s.inp.record[8 + r.val].toNat >>> (7 - c.val)) &&& 1))

/-- R70: BMUX completes in every state with the records concatenated in index order, nothing before, between or after them. -/
def Obligations.BmuxDeliversTheConcatenation : Prop :=
  encode .bmux = 2#3 ∧
  ∀ s : State, ∃ bank : BankImage,
    exec .bmux s = .next { s with call := .delivered (.ok (.bank bank)) } ∧
    IsImageOf bank s.inp.recs ∧
    (∀ a : Fin 4096, bank[a] = s.inp.recs[a.val / 16][a.val % 16]) ∧
    bank.toList = (s.inp.recs.toList.map Vector.toList).flatten

/-- R75: BDMX completes in every state with the 256 contiguous 16-byte records, plane 0 then plane 1 in each. -/
def Obligations.BdmxDeliversTheRecords : Prop :=
  encode .bdmx = 3#3 ∧
  ∀ s : State, ∃ recs : RecordBank,
    exec .bdmx s = .next { s with call := .delivered (.ok (.recs recs)) } ∧
    IsImageOf s.inp.bank recs ∧
    ∀ i : Fin 256,
      recs[i] = memRead s.inp.bank (16 * i.val) 16 (by omega) ∧
      ∀ r : Fin 8, recs[i][r.val] = (memRead s.inp.bank (16 * i.val) 8 (by omega))[r] ∧
        recs[i][8 + r.val] = (memRead s.inp.bank (16 * i.val + 8) 8 (by omega))[r]

/-- R82: BENC completes in every state with the image of the 256 encoded Tiles, bit for bit and as BMUX of TENC of each. -/
def Obligations.BencDeliversTheImage : Prop :=
  encode .benc = 4#3 ∧
  ∀ s : State, ∃ bank : BankImage,
    exec .benc s = .next { s with call := .delivered (.ok (.bank bank)) } ∧
    IsImageOfTiles bank s.inp.tiles ∧
    ∃ recs : RecordBank, bank = bmux recs ∧ ∀ i : Fin 256, recs[i] = tenc s.inp.tiles[i] ∧ IsRecordOf recs[i] s.inp.tiles[i]

/-- R83: BDEC on 4096 bytes completes with the 256 Tiles, bit for bit and as TDEC of each record; on any other length it raises
InvalidBankSize with both sizes and delivers no tile. -/
def Obligations.BdecDeliversTheTilesOrRaises : Prop :=
  encode .bdec = 5#3 ∧
  ∀ s : State,
    (∀ h : s.inp.data.length = 4096, ∃ tiles : TileBank,
      exec .bdec s = .next { s with call := .delivered (.ok (.tiles tiles)) } ∧
      AreTilesOf tiles s.inp.data h ∧
      ∃ bank : BankImage, bank.toList = s.inp.data ∧ ∀ i : Fin 256, tiles[i] = tdec (bdmx bank)[i]) ∧
    (s.inp.data.length ≠ 4096 →
      exec .bdec s = .next { s with call := .delivered (.raised (.invalidBankSize 4096 s.inp.data.length)) })

/-- 44_bank_codec.md, ADMIT_TILE (that shape comes before value is the spec's decision D8, log 8): a raw tile that passes both
tests completes with the same grid; a wrong shape, whatever the values, and otherwise a value above 3, raises. -/
def Obligations.AdmitTileDeliversTheGridOrRaises : Prop :=
  encode .admitTile = 6#3 ∧
  ∀ s : State,
    (TileShape s.inp.rawTile ∧ TileValues s.inp.rawTile → ∃ t : Tile,
      exec .admitTile s = .next { s with call := .delivered (.ok (.tile t)) } ∧ IsGridOf t s.inp.rawTile) ∧
    (TileShape s.inp.rawTile ∧ ¬ TileValues s.inp.rawTile →
      exec .admitTile s = .next { s with call := .delivered (.raised .invalidPixelValue) }) ∧
    (¬ TileShape s.inp.rawTile →
      exec .admitTile s = .next { s with call := .delivered (.raised .invalidBitmapShape) })

/-- 44_bank_codec.md, ADMIT_BANK (shape before value: decision D8, log 8): 256 raw tiles that pass both tests complete with the
same grids in order; otherwise an error and no tile at all. -/
def Obligations.AdmitBankDeliversTheGridsOrRaises : Prop :=
  encode .admitBank = 7#3 ∧
  ∀ s : State,
    (BankShape s.inp.rawBank ∧ BankValues s.inp.rawBank → ∃ ts : TileBank,
      exec .admitBank s = .next { s with call := .delivered (.ok (.tiles ts)) } ∧ AreGridsOf ts s.inp.rawBank) ∧
    (BankShape s.inp.rawBank ∧ ¬ BankValues s.inp.rawBank →
      exec .admitBank s = .next { s with call := .delivered (.raised .invalidPixelValue) }) ∧
    (¬ BankShape s.inp.rawBank →
      exec .admitBank s = .next { s with call := .delivered (.raised .invalidBitmapShape) })

/-- R17, the frame of all eight operations: no input changes, the select and the host do not change, and no other invocation of the
instance changes; only the reply is delivered. -/
def Obligations.OperationsChangeNoInput : Prop :=
  ∀ (i : Instr) (s t : State), exec i s = .next t →
    t.inp = s.inp ∧ t.op = s.op ∧ t.host = s.host ∧ t.others = s.others ∧ ∃ reply, t.call = .delivered reply

/-! ### Errors -/

/-- R102: InvalidBitmapShape is raised exactly on a wrong count, of rows or columns by ADMIT_TILE, or of tiles by ADMIT_BANK, and
by no other operation; it carries nothing. -/
def Obligations.ShapeErrorExactlyOnAWrongCount : Prop :=
  (∀ s t : State, exec .admitTile s = .next t →
    (t.reply = some (.raised .invalidBitmapShape) ↔
      s.inp.rawTile.length ≠ 8 ∨ ∃ row ∈ s.inp.rawTile, row.length ≠ 8)) ∧
  (∀ s t : State, exec .admitBank s = .next t →
    (t.reply = some (.raised .invalidBitmapShape) ↔
      s.inp.rawBank.length ≠ 256 ∨ ∃ raw ∈ s.inp.rawBank, raw.length ≠ 8 ∨ ∃ row ∈ raw, row.length ≠ 8)) ∧
  (∀ (i : Instr) (s t : State), exec i s = .next t → t.reply = some (.raised .invalidBitmapShape) →
    i = .admitTile ∨ i = .admitBank)

/-- R103: InvalidPixelValue is raised exactly when the shape is right and some value is greater than 3, by the two admission
checks alone; it is distinct from InvalidBitmapShape and carries nothing. -/
def Obligations.ValueErrorExactlyOnAValueAboveThree : Prop :=
  (∀ s t : State, exec .admitTile s = .next t →
    (t.reply = some (.raised .invalidPixelValue) ↔
      TileShape s.inp.rawTile ∧ ∃ row ∈ s.inp.rawTile, ∃ v ∈ row, v > 3)) ∧
  (∀ s t : State, exec .admitBank s = .next t →
    (t.reply = some (.raised .invalidPixelValue) ↔
      BankShape s.inp.rawBank ∧ ∃ raw ∈ s.inp.rawBank, ∃ row ∈ raw, ∃ v ∈ row, v > 3)) ∧
  (∀ (i : Instr) (s t : State), exec i s = .next t → t.reply = some (.raised .invalidPixelValue) →
    i = .admitTile ∨ i = .admitBank) ∧
  Error.invalidPixelValue ≠ Error.invalidBitmapShape

/-- R105: InvalidBankSize is raised by BDEC and only by BDEC, exactly when LEN ≠ 4096, with expected 4096 and actual LEN. -/
def Obligations.BankSizeErrorCarriesBothSizes : Prop :=
  (∀ (i : Instr) (s t : State) (expected actual : Nat), exec i s = .next t →
    t.reply = some (.raised (.invalidBankSize expected actual)) →
    i = .bdec ∧ s.inp.data.length ≠ 4096 ∧ expected = 4096 ∧ actual = s.inp.data.length) ∧
  (∀ s t : State, s.inp.data.length ≠ 4096 → exec .bdec s = .next t →
    t.reply = some (.raised (.invalidBankSize 4096 s.inp.data.length)))

/-- 60_exceptions.md section 1: which operation can end with which status; BDEC ends OK exactly when LEN = 4096. -/
def Obligations.EachOperationEndsOnlyWithItsStatuses : Prop :=
  (∀ (i : Instr) (s t : State) (e : Error), exec i s = .next t → t.reply = some (.raised e) → mayRaise i e = true) ∧
  (∀ (i : Instr) (s t : State), i ∈ [Instr.tenc, .tdec, .bmux, .bdmx, .benc] → exec i s = .next t → t.status = some .ok) ∧
  (∀ s t : State, exec .bdec s = .next t → (t.status = some .ok ↔ s.inp.data.length = 4096))

/-- 60_exceptions.md section 1 (the codes are decision D6): each status kind has its own 2-bit code, 0 for OK. -/
def Obligations.StatusCodesTellTheKindsApart : Prop :=
  Status.ok.code = 0#2 ∧ Status.invalidBitmapShape.code = 1#2 ∧ Status.invalidPixelValue.code = 2#2 ∧
  (∀ e a : Nat, (Status.invalidBankSize e a).code = 3#2) ∧
  (∀ st : Status, st.code = 0#2 ↔ st = .ok)

/-- 60_exceptions.md section 3: an operation whose status is not OK delivers the error and its payload, no data output, and
changes nothing else of the interface. -/
def Obligations.AnErrorDeliversNoDataAndSavesNothing : Prop :=
  ∀ (i : Instr) (s t : State), exec i s = .next t → t.status ≠ some .ok →
    ∃ e : Error, t = { s with call := .delivered (.raised e) } ∧ t.status = some e.status ∧
      ∀ out : Output, t.reply ≠ some (.ok out)

/-- 60_exceptions.md section 4: after an error the same input raises the same error again, and any other invocation, by any host, gets
the reply it gets right after reset. -/
def Obligations.AnErrorLeavesNoTrace : Prop :=
  ∀ (h : Nat) (q : Request) (s t : State) (e : Error), s.invoke h q = .next t → t.reply = some (.raised e) →
    (∃ t', t.invoke h q = .next t' ∧ t'.reply = some (.raised e)) ∧
    (∀ (h' : Nat) (q' : Request), ∃ u v reply, t.invoke h' q' = .next u ∧ State.reset.invoke h' q' = .next v ∧
      u.reply = some reply ∧ v.reply = some reply)

/-! ### Laws -/

/-- R94: what an operation delivers is of its own output domain, with that domain's sizes, and with a status other than OK there
is no value. -/
def Obligations.OutputsHaveTheirDomainsAndSizes : Prop :=
  (∀ (i : Instr) (s t : State) (out : Output), exec i s = .next t → t.reply = some (.ok out) →
    match i with
    | .tenc => ∃ r : TileRecord, out = .record r ∧ r.toList.length = 16
    | .tdec => ∃ x : Tile, out = .tile x ∧ x.toList.length = 8 ∧ ∀ row ∈ x.toList, row.toList.length = 8
    | .bmux => ∃ k : BankImage, out = .bank k ∧ k.toList.length = 4096
    | .bdmx => ∃ rs : RecordBank, out = .recs rs ∧ rs.toList.length = 256 ∧ ∀ r ∈ rs.toList, r.toList.length = 16
    | .benc => ∃ k : BankImage, out = .bank k ∧ k.toList.length = 4096
    | .bdec => ∃ ts : TileBank, out = .tiles ts ∧ ts.toList.length = 256 ∧
        ∀ x ∈ ts.toList, x.toList.length = 8 ∧ ∀ row ∈ x.toList, row.toList.length = 8
    | .admitTile => ∃ x : Tile, out = .tile x ∧ x.toList.length = 8 ∧ ∀ row ∈ x.toList, row.toList.length = 8
    | .admitBank => ∃ ts : TileBank, out = .tiles ts ∧ ts.toList.length = 256 ∧
        ∀ x ∈ ts.toList, x.toList.length = 8 ∧ ∀ row ∈ x.toList, row.toList.length = 8) ∧
  (∀ (i : Instr) (s t : State), exec i s = .next t → t.status ≠ some .ok → ∀ out, t.reply ≠ some (.ok out))

/-- R90: from any state, TENC of a Tile followed by TDEC of the delivered record delivers the Tile. -/
def Obligations.DecodingAnEncodedTileGivesItBack : Prop :=
  ∀ (h h2 : Nat) (s : State) (t : Tile), ∃ (s1 s2 : State) (rec : TileRecord),
    s.invoke h (.tenc t) = .next s1 ∧ s1.reply = some (.ok (.record rec)) ∧
    s1.invoke h2 (.tdec rec) = .next s2 ∧ s2.reply = some (.ok (.tile t))

/-- R91: from any state, TDEC of any 16 bytes followed by TENC of the delivered Tile delivers the same 16 bytes. -/
def Obligations.EncodingADecodedRecordGivesItBack : Prop :=
  ∀ (h h2 : Nat) (s : State) (rec : TileRecord), ∃ (s1 s2 : State) (t : Tile),
    s.invoke h (.tdec rec) = .next s1 ∧ s1.reply = some (.ok (.tile t)) ∧
    s1.invoke h2 (.tenc t) = .next s2 ∧ s2.reply = some (.ok (.record rec))

/-- 45_laws.md section 1, at bank granularity (the second half is the spec's own inference): BDEC then BENC gives back any 4096
bytes, and BENC then BDEC any Tile bank with status OK. -/
def Obligations.BankCodecRoundTripsBothWays : Prop :=
  (∀ (h h2 : Nat) (s : State) (data : ByteString), data.length = 4096 → ∃ (s1 s2 : State) (ts : TileBank) (k : BankImage),
    s.invoke h (.bdec data) = .next s1 ∧ s1.reply = some (.ok (.tiles ts)) ∧
    s1.invoke h2 (.benc ts) = .next s2 ∧ s2.reply = some (.ok (.bank k)) ∧ k.toList = data) ∧
  (∀ (h h2 : Nat) (s : State) (ts : TileBank), ∃ (s1 s2 : State) (k : BankImage),
    s.invoke h (.benc ts) = .next s1 ∧ s1.reply = some (.ok (.bank k)) ∧
    s1.invoke h2 (.bdec k.toList) = .next s2 ∧ s2.reply = some (.ok (.tiles ts)))

/-- 45_laws.md section 1: BMUX and BDMX undo one another. -/
def Obligations.FramingRoundTripsBothWays : Prop :=
  (∀ (h h2 : Nat) (s : State) (rs : RecordBank), ∃ (s1 s2 : State) (k : BankImage),
    s.invoke h (.bmux rs) = .next s1 ∧ s1.reply = some (.ok (.bank k)) ∧
    s1.invoke h2 (.bdmx k) = .next s2 ∧ s2.reply = some (.ok (.recs rs))) ∧
  (∀ (h h2 : Nat) (s : State) (k : BankImage), ∃ (s1 s2 : State) (rs : RecordBank),
    s.invoke h (.bdmx k) = .next s1 ∧ s1.reply = some (.ok (.recs rs)) ∧
    s1.invoke h2 (.bmux rs) = .next s2 ∧ s2.reply = some (.ok (.bank k)))

/-- 40_tile_encoder.md, 41_tile_decoder.md, 45_laws.md section 1: no two inputs collide and no output value is unreachable. -/
def Obligations.CodecOperationsAreBijections : Prop :=
  Function.Bijective tenc ∧ Function.Bijective tdec ∧ Function.Bijective bmux ∧ Function.Bijective bdmx ∧
  Function.Bijective benc

/-- 42_bank_multiplexer.md: the pseudocode's 256 record-wide writes, whatever bytes the image starts with, give BMUX's image. -/
def Obligations.BmuxIsItsPseudocode : Prop :=
  ∀ (start : BankImage) (recs : RecordBank), bmuxByWrites start recs = bmux recs

/-- 45_laws.md section 3: plane-0 bytes depend on bit 0 of the pixels alone and plane-1 bytes on bit 1 alone, and the other way
round. -/
def Obligations.PlanesAreSeparable : Prop :=
  (∀ (q : Fin 2) (t u : Tile), (∀ r c : Fin 8, t[r][c].getLsbD q.val = u[r][c].getLsbD q.val) →
    ∀ r : Fin 8, (tenc t)[8 * q.val + r.val] = (tenc u)[8 * q.val + r.val]) ∧
  (∀ (q : Fin 2) (x y : TileRecord), (∀ r : Fin 8, x[8 * q.val + r.val] = y[8 * q.val + r.val]) →
    ∀ r c : Fin 8, (tdec x)[r][c].getLsbD q.val = (tdec y)[r][c].getLsbD q.val)

/-- 45_laws.md section 3: changing one pixel of a Tile bank changes, in BENC's image, bit 7 − c of its plane-0 byte if and only if
bit 0 changed, of its plane-1 byte if and only if bit 1 changed, and nothing else. -/
def Obligations.OnePixelTouchesOnlyItsTwoBits : Prop :=
  ∀ (tiles : TileBank) (i : Fin 256) (r c : Fin 8) (v : Pixel) (a : Fin 4096) (j : Fin 8),
    ((benc (tiles.set i.val (tiles[i].set r.val (tiles[i][r].set c.val v))))[a].getLsbD j.val ≠
      (benc tiles)[a].getLsbD j.val) ↔
    j.val = 7 - c.val ∧
      ((a.val = 16 * i.val + r.val ∧ tiles[i][r][c].getLsbD 0 ≠ v.getLsbD 0) ∨
       (a.val = 16 * i.val + 8 + r.val ∧ tiles[i][r][c].getLsbD 1 ≠ v.getLsbD 1))

/-- 45_laws.md section 3: flipping bit j of byte a of a bank changes, in BDEC's Tiles, exactly the pixel of tile a div 16, row
a mod 8, column 7 − j, by 1 when a mod 16 < 8 and by 2 otherwise. -/
def Obligations.OneImageBitTouchesOnlyItsPixel : Prop :=
  ∀ (data : ByteString) (h : data.length = 4096) (a : Fin 4096) (j : Fin 8),
    ∃ ts us : TileBank, bdec data = .ok ts ∧ bdec (data.set a.val (data[a.val] ^^^ (1#8 <<< j.val))) = .ok us ∧
      ∀ (i : Fin 256) (r c : Fin 8),
        ((us[i][r][c].toNat : Int) - ts[i][r][c].toNat).natAbs =
          if i.val = a.val / 16 ∧ r.val = a.val % 8 ∧ c.val = 7 - j.val then (if a.val % 16 < 8 then 1 else 2) else 0

/-- 10_state.md section 3: element k of width w of a packed port is bits w·k + w − 1 down to w·k, and every port's flat form
unpacks to the same value. -/
def Obligations.FlatPortsPackElementZeroLowest : Prop :=
  (∀ (r : TileRecord) (k : Fin 16) (j : Fin 8), (flatRecord r).getLsbD (8 * k.val + j.val) = r[k].getLsbD j.val) ∧
  (∀ (t : Tile) (r c : Fin 8) (j : Fin 2),
    (flatTile t).getLsbD (2 * (8 * r.val + c.val) + j.val) = t[r][c].getLsbD j.val) ∧
  (∀ (k : BankImage) (a : Fin 4096) (j : Fin 8), (flatBank k).getLsbD (8 * a.val + j.val) = k[a].getLsbD j.val) ∧
  (∀ (rs : RecordBank) (i : Fin 256) (j : Fin 128),
    (flatRecs rs).getLsbD (128 * i.val + j.val) = (flatRecord rs[i]).getLsbD j.val) ∧
  (∀ (ts : TileBank) (i : Fin 256) (j : Fin 128),
    (flatTiles ts).getLsbD (128 * i.val + j.val) = (flatTile ts[i]).getLsbD j.val) ∧
  (∀ r : TileRecord, recordOfFlat (flatRecord r) = r) ∧ (∀ t : Tile, tileOfFlat (flatTile t) = t) ∧
  (∀ k : BankImage, bankOfFlat (flatBank k) = k) ∧ (∀ rs : RecordBank, recsOfFlat (flatRecs rs) = rs) ∧
  (∀ ts : TileBank, tilesOfFlat (flatTiles ts) = ts)

/-! ### Independence, reset, the invariant -/

/-- 00_scope.md section 6, 20_memory.md section 10: the reply to a request depends on the request alone, not on the host, on the state
it is presented in, on an earlier reply or on an input presented for another operation. -/
def Obligations.RepliesDependOnTheRequestAlone : Prop :=
  ∀ (q : Request) (h1 h2 : Nat) (s1 s2 : State), ∃ (t1 t2 : State) (reply : Reply),
    s1.invoke h1 q = .next t1 ∧ s2.invoke h2 q = .next t2 ∧ t1.reply = some reply ∧ t2.reply = some reply

/-- 20_memory.md section 10, 60_exceptions.md section 8 (instances and schedules are the model's rendering, log 11): under any
interleaving, each instance is in the state its own actions alone would have brought it to. -/
def Obligations.InterleavingGivesEachInstanceItsOwnResult : Prop :=
  ∀ (sys : System) (events : List Event) (k : Nat),
    (sys.run events)[k]? = sys[k]?.map fun s => s.runAlone (actionsAt k events)

/-- 20_memory.md section 10, 70_reset_and_hazards.md section 3: a step turns one invocation in progress into its delivered form, with
the reply its request gets alone, and leaves every other invocation of the instance as it is. -/
def Obligations.StepAnswersOneInvocationAndNoOther : Prop :=
  ∀ s t : State, step s = .next t → ∃ (v : Invocation) (reply : Reply) (rest : List Invocation),
    v.call = .inProgress ∧ s.invocations.Perm (v :: rest) ∧
    t.invocations.Perm ({ v with call := .delivered reply } :: rest) ∧ IsOwnReply v.request reply

/-- 60_exceptions.md section 3 for errors, 70_reset_and_hazards.md section 3 for outputs: a reply is delivered to the host that invoked
the operation and to nobody else, and what was delivered before is not changed (that it stays in place until its host closes it is
the model's choice, log 9). -/
def Obligations.RepliesGoToTheInvokingHostAlone : Prop :=
  (∀ s t : State, step s = .next t → ∃ (v : Invocation) (reply : Reply), v ∈ s.invocations ∧ v.call = .inProgress ∧
    (t.repliesTo v.host).Perm ((v.request, reply) :: s.repliesTo v.host) ∧
    ∀ h : Nat, h ≠ v.host → (t.repliesTo h).Perm (s.repliesTo h)) ∧
  (∀ (h : Nat) (q : Request) (s : State), ∃ (t : State) (reply : Reply), s.invoke h q = .next t ∧ t.reply = some reply ∧
    (t.repliesTo h).Perm ((q, reply) :: s.repliesTo h) ∧ ∀ h' : Nat, h' ≠ h → (t.repliesTo h').Perm (s.repliesTo h'))

/-- 60_exceptions.md section 5, 70_reset_and_hazards.md section 3: whatever happens at the instance but reset (presentations by any
host, other operations, a turn, a closing), an operation in progress goes on or is delivered with the reply its request gets alone;
it cannot be cancelled. -/
def Obligations.NothingButResetEndsAnOperationInProgress : Prop :=
  ∀ (a : Action) (s : State), a ≠ .reset → ∀ v ∈ s.invocations, v.call = .inProgress →
    v ∈ (a.apply s).invocations ∨
    ∃ reply, { v with call := .delivered reply } ∈ (a.apply s).invocations ∧ IsOwnReply v.request reply

/-- 20_memory.md section 10, for any instances and any interleaving of presentations, turns, operations, closings and resets: every
reply is the one its request gets alone, whichever host invokes it, and where no reset and no closing is among the events of an
instance, its open invocations are those it had and those presented to it, none lost, none changed (instances and schedules are the
model's rendering, log 11, and how long an invocation stays open is its choice, log 9). -/
def Obligations.AnyInterleavingGivesEveryInvocationItsResultAlone : Prop :=
  ∀ (sys : System) (events : List Event) (k : Nat) (s t : State), sys[k]? = some s → (sys.run events)[k]? = some t →
    ((∀ v ∈ s.invocations, OwnReply v) → ∀ v ∈ t.invocations, OwnReply v) ∧
    ((∀ a ∈ actionsAt k events, a.keeps = true) →
      (t.live.map Invocation.asked).Perm
        (s.live.map Invocation.asked ++ (actionsAt k events).filterMap Action.presented))

/-- 45_laws.md section 4: calls by any hosts presented to one instance at once, and then performed, end with the outcomes they have
when each is performed before the next is presented, every one delivered with the reply its request gets alone, whichever host
invokes it. The model's choices in it: that instances hold their invocations so and schedules are lists of actions (log 11), the
order in which those presented at once are performed (log 17), and that a delivered one stays open (log 9). -/
def Obligations.ConcurrentCallsGetWhatSequentialCallsGet : Prop :=
  ∀ (s : State) (calls : List (Nat × Request)), (∀ v ∈ s.invocations, v.call ≠ .inProgress) →
    ((s.runAlone (concurrently calls)).live.map Invocation.outcome).Perm
      ((s.runAlone (sequentially calls)).live.map Invocation.outcome) ∧
    ∃ replies : List Reply,
      List.Forall₂ (fun c reply => IsOwnReply c.2 reply) calls replies ∧
      ((s.runAlone (concurrently calls)).live.map Invocation.outcome).Perm
        (s.live.map Invocation.outcome ++ List.zipWith (fun c reply => (c.1, c.2, some reply)) calls replies)

/-- 70_reset_and_hazards.md section 1 (decision D13, log 10): between operations reset changes nothing; an operation in progress ends
without a result, a delivered one is not touched, and invoking again gives the reply that would have been given. That the step with
nothing in progress is a fault is the model's choice (log 3). -/
def Obligations.ResetCanBeObservedOnlyDuringAnOperation : Prop :=
  (∀ s : State, (∀ v ∈ s.invocations, v.call ≠ .inProgress) → s.applyReset = s) ∧
  (∀ s : State, s.call = .inProgress →
    s.applyReset.reply = none ∧ step s.applyReset = .fault .noInvocation ∧ s.applyReset.inp = s.inp) ∧
  (∀ s : State, s.applyReset.inProgressCount = 0 ∧ s.applyReset.live.Perm (s.live.filter fun v => v.reply.isSome)) ∧
  (∀ (h : Nat) (q : Request) (s : State), ∃ (t u : State) (reply : Reply),
    (s.present h q).applyReset.invoke h q = .next t ∧ s.invoke h q = .next u ∧ t.reply = some reply ∧ u.reply = some reply)

/-- 10_state.md section 4: after reset, and while an operation is in progress, no output has a value and there is no status. -/
def Obligations.NoOutputBeforeDelivery : Prop :=
  State.reset.reply = none ∧ State.reset.status = none ∧
  (∀ (h : Nat) (q : Request) (s : State), (s.present h q).reply = none ∧ (s.present h q).status = none) ∧
  (∀ v : Invocation, v.call = .inProgress → v.reply = none ∧ v.status = none)

/-- Files 40 to 44: every operation completes in every state with a reply its rule gives for the inputs, and changes nothing
else. For raw input with both a wrong shape and a value above 3 the rule is the spec's decision D8 (log 8). -/
def Obligations.EveryOperationConformsToItsRule : Prop :=
  ∀ (i : Instr) (s : State), ∃ reply : Reply,
    exec i s = .next { s with call := .delivered reply } ∧ Conforms i s.inp reply

/-- Files 40 to 44, 00_scope.md section 6: the rules fix the reply; two replies that conform are the same. For raw input with both a
wrong shape and a value above 3 that is the spec's decision D8 (log 8, 93_implementation_defined.md U2). -/
def Obligations.TheRulesFixTheReply : Prop :=
  ∀ (i : Instr) (inp : Inputs) (r r' : Reply), Conforms i inp r → Conforms i inp r' → r = r'

/-- Files 40 to 44, 60_exceptions.md: the invariant that whatever is delivered is what the selected operation's rule gives for the
inputs on the ports is kept by every step and every host action. For raw input with both a wrong shape and a value above 3 the rule
is the spec's decision D8 (log 8). -/
def Obligations.StepKeepsDeliveredConforms : Prop :=
  ∀ s : State, DeliveredConforms s →
    (∀ s' : State, step s = .next s' → DeliveredConforms s') ∧ ∀ a : Action, DeliveredConforms (a.apply s)

/-- The invariant holds at reset. -/
def Obligations.ResetDeliveredConforms : Prop := DeliveredConforms State.reset

/-! ### The document's entry points, and fixed-width ports -/

/-- 44_bank_codec.md (decision D3), 30_encoding.md section 6: `encode(tile)` is ADMIT_TILE then TENC; on a good raw tile it
delivers the 16 bytes, on a bad one ADMIT_TILE's own error and no encoded byte: InvalidBitmapShape for a wrong shape, whatever the
values (decision D8, log 8), and InvalidPixelValue for the right shape with a value above 3. -/
def Obligations.EncodeOfASingleTile : Prop :=
  ∀ (h : Nat) (s : State) (raw : RawTile),
    (∀ t : Tile, IsGridOf t raw → ∃ (u : State) (rec : TileRecord),
      s.encodeTile h raw = .next u ∧ u.reply = some (.ok (.record rec)) ∧ IsRecordOf rec t) ∧
    (¬ (TileShape raw ∧ TileValues raw) → ∃ (u : State) (e : Error),
      s.encodeTile h raw = .next u ∧ u.reply = some (.raised e) ∧
      ((¬ TileShape raw ∧ e = .invalidBitmapShape) ∨ (TileShape raw ∧ e = .invalidPixelValue)))

/-- 44_bank_codec.md (decision D3), 30_encoding.md section 6: `encode(tiles)` is ADMIT_BANK then BENC; on 256 good raw tiles it
delivers the 4096 bytes, otherwise ADMIT_BANK's own error and no encoded byte: InvalidBitmapShape for a wrong tile count or shape,
whatever the values (decision D8, log 8), and InvalidPixelValue for the right shape with a value above 3. -/
def Obligations.EncodeOfAFullBank : Prop :=
  ∀ (h : Nat) (s : State) (raw : RawBank),
    (∀ ts : TileBank, AreGridsOf ts raw → ∃ (u : State) (k : BankImage),
      s.encodeBank h raw = .next u ∧ u.reply = some (.ok (.bank k)) ∧ IsImageOfTiles k ts) ∧
    (¬ (BankShape raw ∧ BankValues raw) → ∃ (u : State) (e : Error),
      s.encodeBank h raw = .next u ∧ u.reply = some (.raised e) ∧
      ((¬ BankShape raw ∧ e = .invalidBitmapShape) ∨ (BankShape raw ∧ e = .invalidPixelValue)))

/-- Decision D10, 93_implementation_defined.md U8 (saturation is the model's choice, log 14): on a LEN port of at least 13 bits,
a byte string whose length fits gets BDEC's reply, and no other length is ever taken for 4096. -/
def Obligations.FixedWidthBdecAgrees : Prop :=
  ∀ (lenw : Nat) (p : DataPort lenw) (data : ByteString), 13 ≤ lenw → p.Presents data →
    (data.length < 2 ^ lenw → bdecFixed p = bdec data) ∧
    (data.length ≠ 4096 → ∃ actual, actual ≠ 4096 ∧ bdecFixed p = .error (.invalidBankSize 4096 actual))

/-- Decision D11 (the ports are the model's rendering, log 14): admission on ports of at least 3 bits a value agrees with admission
of the raw data they present, a value too wide for the port included. -/
def Obligations.FixedWidthAdmissionAgrees : Prop :=
  (∀ (pixw : Nat) (p : RawTilePort pixw) (raw : RawTile), 3 ≤ pixw → p.Presents raw → admitTileFixed p = admitTile raw) ∧
  (∀ (pixw : Nat) (p : RawBankPort pixw) (raw : RawBank), 3 ≤ pixw → p.Presents raw → admitBankFixed p = admitBank raw)
end

