-- ==== Sys2Proof/Laws/Operands.lean ====
section
/-! SUPPORT. One lemma per operand form: what it gives, so that callers need not unfold it. -/

namespace Sys2Proof.Machine

/-! ### Pixels (R40) -/

theorem planeBit_eq_getLsbD (q : Fin 2) (v : Pixel) : planeBit q v = v.getLsbD q.val := by
  revert q v; decide

theorem toNat_assemble (b0 b1 : Bool) : (assemble b0 b1).toNat = b0.toNat + 2 * b1.toNat := by
  revert b0 b1; decide

theorem getLsbD_assemble (b0 b1 : Bool) (q : Fin 2) :
    (assemble b0 b1).getLsbD q.val = if q = 0 then b0 else b1 := by
  revert b0 b1 q; decide

/-- A pixel is its two bits put together (R40). -/
theorem assemble_getLsbD (v : Pixel) : assemble (v.getLsbD 0) (v.getLsbD 1) = v := by
  revert v; decide

/-- Two pixels with the same two bits are the same pixel. -/
theorem pixel_ext (v w : Pixel) (h : ∀ q : Fin 2, v.getLsbD q.val = w.getLsbD q.val) : v = w := by
  rw [← assemble_getLsbD v, ← assemble_getLsbD w]
  simpa using congrArg₂ assemble (h 0) (h 1)

/-! ### Rows (R41) -/

theorem getElem_setBit (p : Byte) (k j : Nat) (b : Bool) (hj : j < 8) :
    (setBit p k b)[j] = if j = k then b else p[j] := by
  rcases Nat.lt_trichotomy j k with h | h | h
  · have : j ≠ k := by omega
    cases b <;> simp [setBit, h, this]
  · subst h
    cases b <;> simp [setBit]
  · have h1 : j ≠ k := by omega
    have h2 : ¬ j < k := by omega
    have h3 : j - k ≠ 0 := by omega
    cases b <;> simp [setBit, h1, h2, h3]

/-- Bit 7 − c of the plane-q byte of a row is bit q of the pixel in column c (R23, R41). -/
theorem getLsbD_planeByte (q : Fin 2) (w : Row) (c : Fin 8) :
    (planeByte q w).getLsbD (7 - c.val) = w[c].getLsbD q.val := by
  have cols : List.finRange 8 = [0, 1, 2, 3, 4, 5, 6, 7] := by decide
  fin_cases c <;> simp [planeByte, cols, columnBit, getElem_setBit, planeBit_eq_getLsbD]

/-- `row_dec(P0, P1)` in column c (R41). -/
theorem getElem_rowDec (p0 p1 : Byte) (c : Fin 8) :
    (rowDec p0 p1)[c] = assemble (p0.getLsbD (7 - c.val)) (p1.getLsbD (7 - c.val)) := by
  simp [rowDec, columnBit]

/-- Two bytes that agree in the bit of every column are the same byte. -/
theorem byte_ext (x y : Byte) (h : ∀ c : Fin 8, x.getLsbD (7 - c.val) = y.getLsbD (7 - c.val)) : x = y := by
  apply BitVec.eq_of_getLsbD_eq
  intro j hj
  have := h ⟨7 - j, by omega⟩
  simpa [show 7 - (7 - j) = j by omega] using this

/-! ### The flat pixel order (R22) -/

theorem getElem_pixels (t : Tile) (r c : Fin 8) : (pixels t)[8 * r.val + c.val] = t[r][c] := by
  have h1 : (8 * r.val + c.val) / 8 = r.val := by omega
  have h2 : (8 * r.val + c.val) % 8 = c.val := by omega
  simp [pixels, h1, h2]

theorem getElem_tileOfPixels (px : Vector Pixel 64) (r c : Fin 8) : (tileOfPixels px)[r][c] = px[8 * r.val + c.val] := by
  simp [tileOfPixels]

/-! ### Admission (R80, R81): the tests say what the rules say -/

open Sys2Proof.Safety

theorem tileShapeOk_iff (raw : RawTile) : tileShapeOk raw = true ↔ TileShape raw := by
  simp [tileShapeOk, TileShape]

theorem tileValuesOk_iff (raw : RawTile) : tileValuesOk raw = true ↔ TileValues raw := by
  simp [tileValuesOk, TileValues]

theorem bankShapeOk_iff (raw : RawBank) : bankShapeOk raw = true ↔ BankShape raw := by
  simp [bankShapeOk, BankShape, tileShapeOk_iff]

theorem bankValuesOk_iff (raw : RawBank) : bankValuesOk raw = true ↔ BankValues raw := by
  simp [bankValuesOk, BankValues, tileValuesOk_iff]

theorem getElem_tileOfRaw (raw : RawTile) (r c : Fin 8) :
    (tileOfRaw raw)[r][c] = BitVec.ofNat 2 (rawPixel raw r.val c.val) := by
  simp [tileOfRaw]

theorem getElem_tilesOfRaw (raw : RawBank) (i : Fin 256) : (tilesOfRaw raw)[i] = tileOfRaw (raw.getD i.val []) := by
  simp [tilesOfRaw]

theorem getElem_bankOfBytes (data : ByteString) (h : data.length = 4096) (a : Fin 4096) :
    (bankOfBytes data h)[a] = data[a.val] := by
  simp [bankOfBytes]

end Sys2Proof.Machine
end

