-- ==== Sys2Proof/Laws/Ops.lean ====
section
/-! SUPPORT. One lemma per shared operation, saying everything it can do. -/

namespace Sys2Proof.Machine

/-! ### The end of an operation -/

/-- What an operation that may fail delivers. -/
def replyOf : Except Error Output → Reply
  | .ok out => .ok out
  | .error e => .raised e

@[simp] theorem replyOf_ok (out : Output) : replyOf (.ok out) = .ok out := rfl
@[simp] theorem replyOf_error (e : Error) : replyOf (.error e) = .raised e := rfl

theorem finish_eq (r : Except Error Output) (s : State) : finish r s = .next (s.withReply (replyOf r)) := by
  cases r <;> rfl

theorem deliver_eq (out : Output) (s : State) : deliver out s = .next (s.withReply (.ok out)) := rfl

theorem raise_eq (e : Error) (s : State) : raise e s = .next (s.withReply (.raised e)) := rfl

/-! ### The address map (R24, R27, R37) -/

@[simp] theorem recordByte_val (q : Fin 2) (r : Fin 8) : (recordByte q r).val = 8 * q.val + r.val := rfl

@[simp] theorem bankByte_val (i : Fin 256) (k : Fin 16) : (bankByte i k).val = 16 * i.val + k.val := rfl

theorem bankOffset_val (i : Fin 256) (q : Fin 2) (r : Fin 8) :
    (bankOffset i q r).val = 16 * i.val + 8 * q.val + r.val := by
  simp [bankOffset, Nat.add_assoc]

theorem tileOfOffset_bankByte (i : Fin 256) (k : Fin 16) : tileOfOffset (bankByte i k) = i := by
  ext; simp [tileOfOffset]; omega

theorem byteOfOffset_bankByte (i : Fin 256) (k : Fin 16) : byteOfOffset (bankByte i k) = k := by
  ext; simp [byteOfOffset]

theorem bankByte_ofOffset (a : Fin 4096) : bankByte (tileOfOffset a) (byteOfOffset a) = a := by
  ext; simp [tileOfOffset, byteOfOffset]; omega

/-! ### Lanes -/

@[simp] theorem mapVec_eq_map {α β : Type} {n : Nat} (f : α → β) (v : Vector α n) : mapVec f v = v.map f := by
  ext i hi : 1
  simp [mapVec]

/-! ### Byte accesses (R29) -/

theorem getElem_memRead (k : BankImage) (a n : Nat) (h : a + n ≤ 4096) (j : Nat) (hj : j < n) :
    (memRead k a n h)[j] = k[a + j] := by
  simp [memRead]

theorem getElem_memWrite (k : BankImage) (a n : Nat) (v : Vector Byte n) (h : a + n ≤ 4096) (b : Nat) (hb : b < 4096) :
    (memWrite k a n v h)[b] = if hv : a ≤ b ∧ b - a < n then v[b - a] else k[b] := by
  simp [memWrite]

end Sys2Proof.Machine
end

