-- ==== Sys2Proof/Laws/State.lean ====
section
/-! SUPPORT. What each update of `State` leaves in each field, so that later proofs need not unfold a record update. -/

namespace Sys2Proof.Machine

section answered
variable (v : Invocation) (r : Reply)

@[simp] theorem Invocation.answered_host : (v.answered r).host = v.host := rfl
@[simp] theorem Invocation.answered_op : (v.answered r).op = v.op := rfl
@[simp] theorem Invocation.answered_inp : (v.answered r).inp = v.inp := rfl
@[simp] theorem Invocation.answered_call : (v.answered r).call = .delivered r := rfl
@[simp] theorem Invocation.answered_reply : (v.answered r).reply = some r := rfl
@[simp] theorem Invocation.answered_inProgress : (v.answered r).inProgress = false := rfl
@[simp] theorem Invocation.answered_live : (v.answered r).live = true := rfl
@[simp] theorem Invocation.answered_request : (v.answered r).request = v.request := rfl
@[simp] theorem Invocation.answered_answered (r' : Reply) : (v.answered r').answered r = v.answered r := rfl

end answered

section withReply
variable (s : State) (r : Reply)

@[simp] theorem State.withReply_toInvocation : (s.withReply r).toInvocation = s.toInvocation.answered r := rfl
@[simp] theorem State.withReply_others : (s.withReply r).others = s.others := rfl
@[simp] theorem State.withReply_invocations : (s.withReply r).invocations = s.toInvocation.answered r :: s.others := rfl
@[simp] theorem State.withReply_withReply (r' : Reply) : (s.withReply r').withReply r = s.withReply r := rfl

end withReply

section withFetchWord
variable (s : State) (nbits w : Nat)

@[simp] theorem State.withFetchWord_host : (s.withFetchWord nbits w).host = s.host := rfl
@[simp] theorem State.withFetchWord_op : (s.withFetchWord nbits w).op = selectBits nbits w := rfl
@[simp] theorem State.withFetchWord_inp : (s.withFetchWord nbits w).inp = s.inp := rfl
@[simp] theorem State.withFetchWord_call : (s.withFetchWord nbits w).call = .inProgress := rfl
@[simp] theorem State.withFetchWord_others : (s.withFetchWord nbits w).others = s.parked := rfl

end withFetchWord

section presented
variable (h : Nat) (q : Request) (inp : Inputs)

@[simp] theorem Request.presented_host : (q.presented h inp).host = h := rfl
@[simp] theorem Request.presented_op : (q.presented h inp).op = encode q.instr := rfl
@[simp] theorem Request.presented_inp : (q.presented h inp).inp = q.drive inp := rfl
@[simp] theorem Request.presented_call : (q.presented h inp).call = .inProgress := rfl
@[simp] theorem Request.presented_reply : (q.presented h inp).reply = none := rfl
@[simp] theorem Request.presented_inProgress : (q.presented h inp).inProgress = true := rfl
@[simp] theorem Request.presented_live : (q.presented h inp).live = true := rfl

/-- An invocation stands for the request that was presented. -/
@[simp] theorem Request.presented_request : (q.presented h inp).request = q := by cases q <;> rfl

end presented

section present
variable (h : Nat) (q : Request) (s : State)

@[simp] theorem State.present_toInvocation : (s.present h q).toInvocation = q.presented h s.inp := rfl
@[simp] theorem State.present_others : (s.present h q).others = s.parked := rfl

end present

section reset

@[simp] theorem State.reset_call : State.reset.call = .idle := rfl
@[simp] theorem State.reset_inp : State.reset.inp = Inputs.reset := rfl
@[simp] theorem State.reset_others : State.reset.others = [] := rfl
@[simp] theorem State.reset_live : State.reset.live = [] := rfl

end reset

/-! ### Where an invocation stands -/

@[simp] theorem Invocation.inProgress_iff (v : Invocation) : v.inProgress = true ↔ v.call = .inProgress := by
  unfold Invocation.inProgress
  cases v.call <;> simp

@[simp] theorem Invocation.inProgress_eq_false_iff (v : Invocation) : v.inProgress = false ↔ v.call ≠ .inProgress := by
  rw [← Bool.not_eq_true, v.inProgress_iff]

theorem Invocation.live_iff (v : Invocation) : v.live = true ↔ v.call ≠ .idle := by
  unfold Invocation.live
  cases v.call <;> simp

theorem Invocation.reply_eq_some_iff (v : Invocation) (r : Reply) : v.reply = some r ↔ v.call = .delivered r := by
  unfold Invocation.reply
  cases v.call <;> simp

/-- An open invocation without a reply is in progress, and the other way round. -/
theorem Invocation.inProgress_iff_live (v : Invocation) : v.inProgress = true ↔ v.live = true ∧ v.reply = none := by
  unfold Invocation.inProgress Invocation.live Invocation.reply
  cases v.call <;> simp

/-! ### The turn -/

theorem State.mem_invocations (s : State) (v : Invocation) : v ∈ s.invocations ↔ v = s.toInvocation ∨ v ∈ s.others :=
  List.mem_cons

/-- Giving the turn away rearranges the invocations and does nothing else. -/
theorem State.focus_perm (k : Nat) (s : State) : (s.focus k).invocations.Perm s.invocations := by
  unfold State.focus
  split
  · exact .refl _
  · next v h =>
    obtain ⟨hk, rfl⟩ := List.getElem?_eq_some_iff.1 h
    have hset : (s.others.set k s.toInvocation).Perm (s.toInvocation :: s.others.eraseIdx k) := by
      simpa using List.set_perm_cons_eraseIdx hk s.toInvocation
    exact (hset.cons _).trans ((List.Perm.swap _ _ _).trans ((List.getElem_cons_eraseIdx_perm hk).cons _))

theorem State.nextUp_of_inProgress (s : State) (h : s.call = .inProgress) : s.nextUp = some s := by
  simp [State.nextUp, h]

/-- Without the turn at an invocation in progress, the first other one in progress gets it. -/
theorem State.nextUp_of_findIdx (s : State) (k : Nat) (h : s.call ≠ .inProgress)
    (hk : s.others.findIdx? Invocation.inProgress = some k) : s.nextUp = some (s.focus k) := by
  simp [State.nextUp, h, hk]

/-- All that `nextUp` can give: the same invocations, with the turn at one in progress. -/
theorem State.nextUp_spec (s u : State) (h : s.nextUp = some u) :
    u.call = .inProgress ∧ u.invocations.Perm s.invocations := by
  unfold State.nextUp at h
  split at h
  · next hs =>
    cases h
    exact ⟨s.toInvocation.inProgress_iff.1 hs, .refl _⟩
  · obtain ⟨k, hk, rfl⟩ := Option.map_eq_some_iff.1 h
    refine ⟨?_, s.focus_perm k⟩
    obtain ⟨hlt, hp, -⟩ := List.findIdx?_eq_some_iff_getElem.1 hk
    simpa [State.focus, hlt] using hp

/-- The only other case: nothing is in progress. -/
theorem State.nextUp_eq_none_iff (s : State) : s.nextUp = none ↔ ∀ v ∈ s.invocations, v.call ≠ .inProgress := by
  unfold State.nextUp
  by_cases h : s.call = .inProgress <;> simp [h, State.invocations, List.findIdx?_eq_none_iff]

/-! ### Keeping the open invocations -/

theorem State.live_cons (v : Invocation) (l : List Invocation) :
    (State.mk v l).live = if v.live then v :: l.filter Invocation.live else l.filter Invocation.live :=
  List.filter_cons

/-- Parking keeps every open invocation. -/
theorem State.parked_live_perm (s : State) : (s.parked.filter Invocation.live).Perm s.live := by
  unfold State.live State.invocations
  cases hc : s.call <;> simp only [State.parked, hc, List.filter_append, List.filter_cons, List.filter_nil, Invocation.live]
  all_goals simp

theorem State.mem_parked (s : State) (v : Invocation) (h : v ∈ s.parked) : v ∈ s.invocations := by
  unfold State.parked at h
  rw [s.mem_invocations]
  split at h <;> simp_all [or_comm]

theorem State.mem_parked_of_live (s : State) (v : Invocation) (h : v ∈ s.invocations) (hl : v.call ≠ .idle) : v ∈ s.parked := by
  rw [s.mem_invocations] at h
  unfold State.parked
  split <;> rcases h with rfl | h <;> simp_all

/-- A presentation opens one invocation and ends none. -/
theorem State.present_live_perm (h : Nat) (q : Request) (s : State) :
    (s.present h q).live.Perm (q.presented h s.inp :: s.live) := by
  unfold State.present
  rw [State.live_cons]
  simpa using s.parked_live_perm

/-! ### Reset and closing -/

theorem Invocation.cut_of_not_inProgress (v : Invocation) (h : v.call ≠ .inProgress) : v.cut = v := by
  unfold Invocation.cut
  split <;> simp_all

theorem Invocation.cut_of_inProgress (v : Invocation) (h : v.call = .inProgress) : v.cut = { v with call := .idle } := by
  simp [Invocation.cut, h]

theorem Invocation.cut_call_ne (v : Invocation) : v.cut.call ≠ .inProgress := by
  unfold Invocation.cut
  split <;> simp_all

@[simp] theorem Invocation.cut_inp (v : Invocation) : v.cut.inp = v.inp := by
  unfold Invocation.cut
  split <;> rfl

@[simp] theorem State.applyReset_toInvocation (s : State) : s.applyReset.toInvocation = s.toInvocation.cut := rfl
@[simp] theorem State.applyReset_others (s : State) : s.applyReset.others = s.others.map Invocation.cut := rfl

theorem State.applyReset_invocations (s : State) : s.applyReset.invocations = s.invocations.map Invocation.cut := rfl

theorem State.applyReset_of_no_inProgress (s : State) (h : ∀ v ∈ s.invocations, v.call ≠ .inProgress) : s.applyReset = s := by
  have hc : ∀ v ∈ s.invocations, v.cut = v := fun v hv => v.cut_of_not_inProgress (h v hv)
  have ho : s.others.map Invocation.cut = s.others :=
    (List.map_congr_left fun v hv => hc v (List.mem_cons_of_mem _ hv)).trans (List.map_id' _)
  rw [State.applyReset, ho, hc _ List.mem_cons_self]

/-- Closing ends no invocation but a delivered one of that host. -/
theorem State.mem_close (h : Nat) (s : State) (v : Invocation) (hv : v ∈ s.invocations) (hd : v.deliveredTo h = false) :
    v ∈ (s.close h).invocations := by
  rw [State.mem_invocations] at hv ⊢
  rcases hv with rfl | hv
  · left; simp [State.close, hd]
  · right; simp [State.close, hv, hd]

end Sys2Proof.Machine
end

