-- ==== Sys2Proof/Laws/Meanings.lean ====
section
/-! SUPPORT. What each meaning delivers, and the one lemma about `step` that every later proof cites. -/

namespace Sys2Proof.Machine

open Sys2Proof.Safety

/-! ### The data path, element by element -/

/-- Byte 8·q + r of a record is the plane-q byte of row r (R24, R60). -/
theorem getElem_tenc (t : Tile) (q : Fin 2) (r : Fin 8) : (tenc t)[8 * q.val + r.val] = planeByte q t[r] := by
  have h1 : (8 * q.val + r.val) / 8 = q.val := by omega
  have h2 : (8 * q.val + r.val) % 8 = r.val := by omega
  simp [tenc, h1, h2]

/-- Row r of a Tile is decoded from bytes r and 8 + r (R65). -/
theorem getElem_tdec (rec : TileRecord) (r : Fin 8) : (tdec rec)[r] = rowDec rec[r.val] rec[8 + r.val] := by
  simp [tdec]

/-- Byte a of an image is byte a mod 16 of record a div 16 (R70). -/
theorem getElem_bmux (recs : RecordBank) (a : Fin 4096) : (bmux recs)[a] = recs[tileOfOffset a][byteOfOffset a] := by
  simp [bmux]

/-- Byte k of record i is byte 16·i + k of the image (R75). -/
theorem getElem_bdmx (bank : BankImage) (i : Fin 256) (k : Fin 16) : (bdmx bank)[i][k] = bank[16 * i.val + k.val] := by
  simp [bdmx, getElem_memRead]

theorem bdec_of_length (data : ByteString) (h : data.length = 4096) :
    bdec data = .ok ((bdmx (bankOfBytes data h)).map tdec) := by
  simp [bdec, h]

theorem bdec_of_length_ne (data : ByteString) (h : data.length ≠ 4096) :
    bdec data = .error (.invalidBankSize 4096 data.length) := by
  simp [bdec, h]

/-- All that ADMIT_TILE's check can answer (R80, R106). -/
theorem admitTile_cases (raw : RawTile) :
    (TileShape raw ∧ TileValues raw ∧ admitTile raw = .ok (tileOfRaw raw)) ∨
    (TileShape raw ∧ ¬ TileValues raw ∧ admitTile raw = .error .invalidPixelValue) ∨
    (¬ TileShape raw ∧ admitTile raw = .error .invalidBitmapShape) := by
  by_cases h : TileShape raw <;> by_cases hv : TileValues raw <;>
    simp [admitTile, tileShapeOk_iff, tileValuesOk_iff, h, hv]

/-- All that ADMIT_BANK's check can answer (R81, R106). -/
theorem admitBank_cases (raw : RawBank) :
    (BankShape raw ∧ BankValues raw ∧ admitBank raw = .ok (tilesOfRaw raw)) ∨
    (BankShape raw ∧ ¬ BankValues raw ∧ admitBank raw = .error .invalidPixelValue) ∨
    (¬ BankShape raw ∧ admitBank raw = .error .invalidBitmapShape) := by
  by_cases h : BankShape raw <;> by_cases hv : BankValues raw <;>
    simp [admitBank, bankShapeOk_iff, bankValuesOk_iff, h, hv]

/-! ### The meanings -/

/-- The reply of an operation on given inputs, as the meanings compute it. -/
def answer : Instr → Inputs → Reply
  | .tenc, inp => .ok (.record (tenc inp.tile))
  | .tdec, inp => .ok (.tile (tdec inp.record))
  | .bmux, inp => .ok (.bank (bmux inp.recs))
  | .bdmx, inp => .ok (.recs (bdmx inp.bank))
  | .benc, inp => .ok (.bank (benc inp.tiles))
  | .bdec, inp => replyOf ((bdec inp.data).map .tiles)
  | .admitTile, inp => replyOf ((admitTile inp.rawTile).map .tile)
  | .admitBank, inp => replyOf ((admitBank inp.rawBank).map .tiles)

/-- Every operation ends with the reply it computes from its inputs and changes nothing else. -/
theorem exec_eq (i : Instr) (s : State) : exec i s = .next (s.withReply (answer i s.inp)) := by
  cases i <;> simp [exec, answer, execTenc, execTdec, execBmux, execBdmx, execBenc, execBdec, execAdmitTile,
    execAdmitBank, deliver_eq, finish_eq]

/-- A step is the selected operation of the invocation that is next. -/
theorem step_of_nextUp (s u : State) (h : s.nextUp = some u) :
    step s = .next (u.withReply (answer (decode u.op) u.inp)) := by
  simp [step, h, exec_eq]

/-- A step is the selected operation on the presented inputs, where the invocation with the turn is in progress. -/
theorem step_of_inProgress (s : State) (h : s.call = .inProgress) :
    step s = .next (s.withReply (answer (decode s.op) s.inp)) :=
  step_of_nextUp s s (s.nextUp_of_inProgress h)

/-- All that a step can do: it gives the turn to an invocation in progress and delivers that operation's reply. -/
theorem step_eq_next_iff (s t : State) :
    step s = .next t ↔ ∃ u, s.nextUp = some u ∧ t = u.withReply (answer (decode u.op) u.inp) := by
  cases h : s.nextUp with
  | none => simp [step, h]
  | some u => simp [step_of_nextUp s u h, eq_comm]

/-- The other outcome: without an invocation in progress there is no step. -/
theorem step_of_none_inProgress (s : State) (h : ∀ v ∈ s.invocations, v.call ≠ .inProgress) : step s = .fault .noInvocation := by
  simp [step, s.nextUp_eq_none_iff.2 h]

/-- The reply a request gets, whatever stands on the other ports. -/
def Request.ownReply (q : Request) : Reply := answer q.instr (q.drive Inputs.reset)

theorem Request.answer_drive (q : Request) (inp : Inputs) : answer q.instr (q.drive inp) = q.ownReply := by
  cases q <;> rfl

/-- An operation reads its own input port and nothing else. -/
theorem Invocation.answer_eq (v : Invocation) : answer (decode v.op) v.inp = v.request.ownReply := by
  unfold Invocation.request
  cases decode v.op <;> rfl

/-- All that a step can do, as a change of the invocations of the instance: one in progress is answered with its request's own reply. -/
theorem step_perm (s t : State) (h : step s = .next t) : ∃ (v : Invocation) (rest : List Invocation),
    v.call = .inProgress ∧ s.invocations.Perm (v :: rest) ∧ t.invocations.Perm (v.answered v.request.ownReply :: rest) := by
  obtain ⟨u, hu, rfl⟩ := (step_eq_next_iff s t).1 h
  obtain ⟨hc, hp⟩ := s.nextUp_spec u hu
  refine ⟨u.toInvocation, u.others, hc, hp.symm, ?_⟩
  rw [State.withReply_invocations, u.toInvocation.answer_eq]

/-- One invocation by a host: the request's own reply is delivered. -/
theorem invoke_eq (h : Nat) (q : Request) (s : State) :
    s.invoke h q = .next ((s.present h q).withReply q.ownReply) := by
  rw [State.invoke, step_of_inProgress (s.present h q) rfl, (s.present h q).toInvocation.answer_eq]
  simp

/-- An invocation of BDEC on a whole bank. Cite this rather than unfold: evaluating the length test on 4096 given bytes is more
than the kernel takes. -/
theorem invoke_bdec_of_length (h : Nat) (s : State) (data : ByteString) (hd : data.length = 4096) :
    s.invoke h (.bdec data) =
      .next ((s.present h (.bdec data)).withReply (.ok (.tiles ((bdmx (bankOfBytes data hd)).map tdec)))) := by
  rw [invoke_eq]
  simp [Request.ownReply, Request.instr, Request.drive, answer, bdec_of_length _ hd, Except.map]

end Sys2Proof.Machine
end

