-- ==== Sys2Proof/Laws/Host.lean ====
section
/-! SUPPORT. One lemma per operation of the host's side: chains, instances, flat ports and fixed-width ports. -/

namespace Sys2Proof.Machine

/-! ### Chains (R55, R84) -/

theorem thenInvoke_ok (h : Nat) (next : Output → Option Request) (s : State) (out : Output) (q : Request)
    (hq : next out = some q) :
    thenInvoke h next (.next (s.withReply (.ok out))) = (s.withReply (.ok out)).invoke h q := by
  simp [thenInvoke, hq]

theorem thenInvoke_raised (h : Nat) (next : Output → Option Request) (s : State) (e : Error) :
    thenInvoke h next (.next (s.withReply (.raised e))) = .next (s.withReply (.raised e)) := by
  simp [thenInvoke]

/-! ### Sources of host programs (R54, R55) -/

theorem vectorOf_toList {α : Type} {n : Nat} (v : Vector α n) : vectorOf n v.toList = some v := by
  simp [vectorOf, Vector.toList]

theorem mapM_map_some {α β : Type} (f : β → Option α) (g : α → β) (h : ∀ a, f (g a) = some a) (l : List α) :
    (l.map g).mapM f = some l := by
  induction l with
  | nil => rfl
  | cons a l ih => simp [h, ih]

/-- A tuple of 256 records is the Record bank that holds them. -/
theorem bankOfValues_records (rs : RecordBank) : bankOfValues (rs.toList.map .record) = some (.recs rs) := by
  rw [bankOfValues, mapM_map_some asRecord .record (fun _ => rfl)]
  simp [vectorOf_toList]

/-- A tuple of 256 Tiles is the Tile bank that holds them. -/
theorem bankOfValues_tiles (ts : TileBank) : bankOfValues (ts.toList.map .tile) = some (.tiles ts) := by
  have hn : (ts.toList.map HostValue.tile).mapM asRecord = none := by
    have hl : ts.toList.length = 256 := Vector.length_toList
    cases h : ts.toList with
    | nil => simp [h] at hl
    | cons t l => simp [asRecord]
  rw [bankOfValues, hn, mapM_map_some asTile .tile (fun _ => rfl)]
  simp [vectorOf_toList]

/-! ### Instances (R33) -/

theorem System.getElem?_apply (sys : System) (e : Event) (k : Nat) :
    (sys.apply e)[k]? = if e.core = k then sys[k]?.map e.action.apply else sys[k]? := by
  by_cases h : e.core = k <;> simp [System.apply, h]

@[simp] theorem State.runAlone_nil (s : State) : s.runAlone [] = s := rfl

@[simp] theorem State.runAlone_cons (s : State) (a : Action) (rest : List Action) :
    s.runAlone (a :: rest) = (a.apply s).runAlone rest := rfl

/-! ### Flat ports (R15) -/

theorem testBit_foldr_pack {w : Nat} (l : List (BitVec w)) (k j : Nat) (hj : j < w) (hk : k < l.length) :
    (l.foldr (fun (x : BitVec w) (rest : Nat) => x.toNat + 2 ^ w * rest) 0).testBit (w * k + j) = l[k].getLsbD j := by
  induction l generalizing k with
  | nil => simp at hk
  | cons x l ih =>
    simp only [List.foldr_cons]
    rw [Nat.add_comm, Nat.testBit_two_pow_mul_add _ x.isLt]
    cases k with
    | zero => simp [hj, BitVec.getLsbD]
    | succ k =>
      have hge : ¬ w * (k + 1) + j < w := by nlinarith
      have hsub : w * (k + 1) + j - w = w * k + j := by rw [Nat.mul_add]; omega
      rw [if_neg hge, hsub, ih k (by simpa using hk)]
      simp

/-- Bit j of element k is bit w·k + j of the packed port. -/
theorem getLsbD_pack {w n : Nat} (v : Vector (BitVec w) n) (k j : Nat) (hj : j < w) (hk : k < n) :
    (pack v).getLsbD (w * k + j) = v[k].getLsbD j := by
  have hlt : w * k + j < w * n := by nlinarith
  simp only [pack, BitVec.getLsbD_ofNat, hlt, decide_true, Bool.true_and]
  rw [testBit_foldr_pack _ _ _ hj (by simpa using hk)]
  simp

theorem unpack_pack {w n : Nat} (v : Vector (BitVec w) n) : unpack w n (pack v) = v := by
  ext k hk : 1
  apply BitVec.eq_of_getLsbD_eq
  intro j hj
  simp only [unpack, Vector.getElem_ofFn, BitVec.getLsbD_extractLsb', hj, decide_true, Bool.true_and]
  exact getLsbD_pack v k j hj hk

/-! ### Fixed-width ports (D10, D11) -/

theorem toNat_lenOnPort (lenw len : Nat) : (lenOnPort lenw len).toNat = min len (2 ^ lenw - 1) := by
  simp only [lenOnPort, BitVec.toNat_ofNat]
  apply Nat.mod_eq_of_lt
  have : 0 < 2 ^ lenw := by positivity
  omega

theorem toNat_valueOnPort (pixw v : Nat) : (valueOnPort pixw v).toNat = min v (2 ^ pixw - 1) :=
  toNat_lenOnPort pixw v

end Sys2Proof.Machine
end

