-- ==== Sys2Proof/Laws/PerInstr.lean ====
section
/-! SUPPORT. Per-instruction facts about the select words. -/

namespace Sys2Proof.Laws.SelectWord

/-- The select word of an operation decodes to it and to no other, and the operation is well formed (R50 to R52). -/
def Statement (i : Instr) : Prop :=
  i.wellFormed = true ∧ decode (encode i) = i ∧ ∀ op, decode op = i → op = encode i

theorem tenc : Statement .tenc := ⟨rfl, rfl, by decide⟩
theorem tdec : Statement .tdec := ⟨rfl, rfl, by decide⟩
theorem bmux : Statement .bmux := ⟨rfl, rfl, by decide⟩
theorem bdmx : Statement .bdmx := ⟨rfl, rfl, by decide⟩
theorem benc : Statement .benc := ⟨rfl, rfl, by decide⟩
theorem bdec : Statement .bdec := ⟨rfl, rfl, by decide⟩
theorem admitTile : Statement .admitTile := ⟨rfl, rfl, by decide⟩
theorem admitBank : Statement .admitBank := ⟨rfl, rfl, by decide⟩

end Sys2Proof.Laws.SelectWord
end

