-- ==== Sys2Proof/Tests/Slice0.lean ====
section
/-! SUPPORT. Tests whose expected results are the spec's own words and vectors (30_encoding.md, 95_test_vectors.md), the smoke test
of WellFormed, and a witness for every statement's hypotheses. -/

namespace Sys2Proof.Tests

open Sys2Proof.Machine Sys2Proof.Safety

/-! ### Select words, written out bit by bit from the code column of R50 -/

theorem test_decode_tenc : decode 0b000#3 = .tenc := by decide
theorem test_decode_tdec : decode 0b001#3 = .tdec := by decide
theorem test_decode_bmux : decode 0b010#3 = .bmux := by decide
theorem test_decode_bdmx : decode 0b011#3 = .bdmx := by decide
theorem test_decode_benc : decode 0b100#3 = .benc := by decide
theorem test_decode_bdec : decode 0b101#3 = .bdec := by decide
theorem test_decode_admitTile : decode 0b110#3 = .admitTile := by decide
theorem test_decode_admitBank : decode 0b111#3 = .admitBank := by decide
theorem test_table_word_bdec : decodeTableWord 8 0b00000101 = some .bdec := by decide

/-- The host's question: the word runs as the first operation after reset. -/
theorem test_first_operation_after_reset :
    step (State.reset.withFetchWord 8 5) = exec .bdec (State.reset.withFetchWord 8 5) := rfl

/-! ### WellFormed: for each check of a host program a term it refuses, and one that passes -/

/-- Program 3.1: encode a tile, decode it again (variables 0, 1, 2). -/
def roundTripProgram (t : Tile) : HostProgram :=
  [⟨none, .host 0 fun _ => .tile t⟩, ⟨none, .invoke 1 .tenc (.var 0) none⟩, ⟨none, .invoke 2 .tdec (.var 1) none⟩]

theorem test_wellFormed_accepts : (roundTripProgram (Vector.replicate 8 (Vector.replicate 8 0))).wellFormed = true := by decide

theorem test_wellFormed_refuses_bound_twice :
    HostProgram.wellFormed [⟨none, .host 0 fun _ => .truth true⟩, ⟨none, .host 0 fun _ => .truth false⟩] = false := by decide

theorem test_wellFormed_refuses_label_twice :
    HostProgram.wellFormed [⟨some 1, .host 0 fun _ => .truth true⟩, ⟨some 1, .host 1 fun _ => .truth false⟩] = false := by decide

theorem test_wellFormed_refuses_missing_label :
    HostProgram.wellFormed [⟨none, .host 0 fun _ => .rawTile []⟩, ⟨none, .invoke 1 .admitTile (.var 0) (some 7)⟩] = false := by decide

theorem test_wellFormed_refuses_unbound_source :
    HostProgram.wellFormed [⟨none, .invoke 1 .tdec (.var 0) none⟩] = false := by decide

/-! ### Rows and tiles (95 sections 1.3, 1.5, 2.1, 2.2) -/

theorem test_rowEnc_1_3 : rowEnc #v[1, 0, 2, 3, 0, 0, 0, 0] = (0x90, 0x30) := by decide
theorem test_rowDec_0_1_2_3 : rowDec 0x55 0x33 = #v[0, 1, 2, 3, 0, 1, 2, 3] := by decide

/-- The gradient tile of section 2.2. -/
def gradient : Tile :=
  #v[#v[0, 1, 2, 3, 0, 1, 2, 3], #v[1, 2, 3, 0, 1, 2, 3, 0], #v[2, 3, 0, 1, 2, 3, 0, 1], #v[3, 0, 1, 2, 3, 0, 1, 2],
    #v[0, 1, 2, 3, 0, 1, 2, 3], #v[1, 2, 3, 0, 1, 2, 3, 0], #v[2, 3, 0, 1, 2, 3, 0, 1], #v[3, 0, 1, 2, 3, 0, 1, 2]]

/-- The record of the gradient tile, section 2.2. -/
def gradientRecord : TileRecord :=
  #v[0x55, 0xAA, 0x55, 0xAA, 0x55, 0xAA, 0x55, 0xAA, 0x33, 0x66, 0xCC, 0x99, 0x33, 0x66, 0xCC, 0x99]

/-- The record of section 1.5 (general knowledge, a cross-check of orientation). -/
def chrRecord : TileRecord :=
  #v[0x41, 0xC2, 0x44, 0x48, 0x10, 0x20, 0x40, 0x80, 0x01, 0x02, 0x04, 0x08, 0x16, 0x21, 0x42, 0x87]

/-- A state with a request presented by host 7. -/
def presented (q : Request) : State := State.reset.present 7 q

/-- The reply of an outcome. -/
def replyOfOutcome : Host.Outcome State Fault Refusal → Option Reply
  | .next s => s.reply
  | .fault _ => none
  | .refused _ => none

theorem test_tenc_gradient :
    replyOfOutcome (exec .tenc (presented (.tenc gradient))) = some (.ok (.record gradientRecord)) := by decide

theorem test_tdec_chr_row_4 : (tdec chrRecord)[4] = #v[0, 0, 0, 3, 0, 2, 2, 0] := by decide

theorem test_tdec_chr_row_7 : (tdec chrRecord)[7] = #v[3, 0, 0, 0, 0, 2, 2, 2] := by decide

/-! ### Banks (95 sections 2.4, 2.5, 2.7) -/

/-- Bank image A of section 2.4: byte a is a mod 256. -/
def imageA : BankImage := Vector.ofFn fun a : Fin 4096 => BitVec.ofNat 8 a.val

theorem test_bdmx_record_17 : (bdmx imageA)[17][0] = 0x10 ∧ (bdmx imageA)[17][15] = 0x1F := by
  have h0 := getElem_bdmx imageA 17 0
  have h1 := getElem_bdmx imageA 17 15
  exact ⟨h0.trans (by simp [imageA]), h1.trans (by simp [imageA])⟩

/-- The records of R70's worked example: byte k of record i is (16·i + k) mod 256. -/
def recsA : RecordBank := Vector.ofFn fun i : Fin 256 => Vector.ofFn fun k : Fin 16 => BitVec.ofNat 8 (16 * i.val + k.val)

theorem test_bmux_0x010_and_0x100 : (bmux recsA)[(0x010 : Fin 4096)] = 0x10 ∧ (bmux recsA)[(0x100 : Fin 4096)] = 0x00 := by
  rw [getElem_bmux, getElem_bmux]
  exact ⟨by simp [recsA, tileOfOffset, byteOfOffset], by simp [recsA, tileOfOffset, byteOfOffset]⟩

/-- Tile bank S of section 2.4: all 0 except tile 2, pixel (0, 0) = 3. -/
def bankS : TileBank :=
  Vector.ofFn fun i : Fin 256 => Vector.ofFn fun r : Fin 8 => Vector.ofFn fun c : Fin 8 =>
    if i = 2 ∧ r = 0 ∧ c = 0 then 3 else 0

theorem test_benc_S : (bmux (mapVec tenc bankS))[(32 : Fin 4096)] = 0x80 ∧ (benc bankS)[(33 : Fin 4096)] = 0x00 ∧
    (benc bankS)[(40 : Fin 4096)] = 0x80 := by
  have hS : bankS[2] = (Vector.replicate 8 (Vector.replicate 8 0)).set 0 #v[3, 0, 0, 0, 0, 0, 0, 0] := by
    simp only [bankS, Vector.getElem_ofFn]; decide
  have key : ∀ k : Fin 16, (benc bankS)[bankByte 2 k] = (tenc bankS[2])[k] := fun k => by
    rw [benc, getElem_bmux]; simp [tileOfOffset_bankByte, byteOfOffset_bankByte]
  refine ⟨(key 0).trans ?_, (key 1).trans ?_, (key 8).trans ?_⟩ <;> rw [hS] <;> decide

theorem test_offset_0x113 : tileOfOffset 0x113 = 17 ∧ planeOfOffset 0x113 = 0 ∧ rowOfOffset 0x113 = 3 := by decide
theorem test_offset_0x11B : bankOffset 17 1 3 = 0x11B ∧ bankOffset 255 1 7 = 0xFFF := by decide

theorem test_bdec_length_0 : replyOfOutcome (exec .bdec (presented (.bdec []))) = some (.raised (.invalidBankSize 4096 0)) := by
  decide

theorem test_bdec_length_4097 : bdec (List.replicate 4097 0) = .error (.invalidBankSize 4096 4097) := by
  have h : (List.replicate 4097 (0 : Byte)).length = 4097 := List.length_replicate
  rw [bdec_of_length_ne _ (by rw [h]; decide), h]

/-! ### Admission (95 section 2.6) -/

/-- A good raw row. -/
def goodRow : List Nat := [0, 1, 2, 3, 0, 1, 2, 3]

/-- A good raw tile. -/
def goodTile : RawTile := List.replicate 8 goodRow

theorem test_admitTile_7_rows : admitTile (List.replicate 7 goodRow) = .error .invalidBitmapShape := by decide

theorem test_admitTile_value_4_and_9_columns :
    admitTile ([4, 0, 0, 0, 0, 0, 0, 0] :: goodRow :: [0, 1, 2, 3, 0, 1, 2, 3, 0] :: List.replicate 5 goodRow) =
      .error .invalidBitmapShape := by decide

theorem test_admitTile_value_4 :
    admitTile (goodTile.set 5 [0, 1, 4, 3, 0, 1, 2, 3]) = .error .invalidPixelValue := by decide

theorem test_admitTile_good : admitTile goodTile = .ok (Vector.replicate 8 #v[0, 1, 2, 3, 0, 1, 2, 3]) := by decide

theorem test_admitBank_one_tile : admitBank [goodTile] = .error .invalidBitmapShape := by decide

/-! ### Statuses, the host's side -/

theorem test_status_code : (Reply.raised (.invalidBankSize 4096 16)).status.code = 3#2 := by decide

theorem test_step_idle : replyOfOutcome (step State.reset) = none := by decide

/-- Pixel (0, 1) of a Tile is at bits 3 and 2 of its flat port (R15). -/
theorem test_flatTile : flatTile (Vector.replicate 8 #v[0, 2, 0, 0, 0, 0, 0, 0]) &&& 0xFF#128 = 8#128 := by decide

theorem test_lenOnPort : (lenOnPort 13 4096).toNat = 4096 ∧ (lenOnPort 13 12288).toNat = 8191 := by decide

/-- How a host program ends, with the variables it has bound. -/
def endOf (p : HostProgram) (fuel : Nat) : Option (HostEnd × List Nat) :=
  match hostRun p fuel (HostState.start 7 State.reset) with
  | .running _ => none
  | .ended h why => some (why, h.env.map Prod.fst)

/-- Program 3.1: both invocations are OK and the program finishes. -/
theorem test_program_3_1 : endOf (roundTripProgram gradient) 4 = some (.finished, [2, 1, 0]) ∧
    programCodes (roundTripProgram gradient) = [0b000#3, 0b001#3] := by decide

/-- Program 3.6: a shape error without a label ends the program; the second line is never invoked. -/
theorem test_program_3_6 :
    endOf [⟨none, .host 0 fun _ => .rawTile (List.replicate 9 goodRow)⟩, ⟨none, .invoke 1 .admitTile (.var 0) none⟩,
      ⟨none, .invoke 2 .tenc (.var 1) none⟩] 4 = some (.raised .invalidBitmapShape, [0]) := by decide

/-- Program 3.6 again: its lines' codes are 110 000 (R54), the invoked ones "`110` then nothing" (95 section 3.6). -/
theorem test_codes_3_6 :
    let p : HostProgram := [⟨none, .host 0 fun _ => .rawTile (List.replicate 9 goodRow)⟩,
      ⟨none, .invoke 1 .admitTile (.var 0) none⟩, ⟨none, .invoke 2 .tenc (.var 1) none⟩]
    programCodes p = [0b110#3, 0b000#3] ∧ invokedCodes p 4 (HostState.start 7 State.reset) = [0b110#3] := by decide

/-- As the last line of program 3.4, an element as the source: tile 1 of a raw bank. -/
theorem test_element_source :
    endOf [⟨none, .host 0 fun _ => .rawBank [[], goodTile]⟩, ⟨none, .invoke 1 .admitTile (.elem 0 1) none⟩] 3 =
      some (.finished, [1, 0]) := by decide

/-- As R55's `BMUX (r_0, ..., r_255)`, a tuple as the source: 256 records are the Record bank, 2 are none. -/
theorem test_tuple_source : bankOfValues (recsA.toList.map .record) = some (.recs recsA) ∧
    sourceValue (.tuple [0, 0]) [(0, .record gradientRecord)] = none := ⟨bankOfValues_records recsA, by decide⟩

/-- As program 3.3, with an admission error: the host branches to the label and the next invocation is OK. -/
theorem test_program_branches_on_an_error :
    endOf [⟨none, .host 0 fun _ => .rawTile []⟩, ⟨none, .invoke 1 .admitTile (.var 0) (some 9)⟩,
      ⟨none, .invoke 2 .tenc (.var 1) none⟩, ⟨some 9, .host 3 fun _ => .rawTile goodTile⟩, ⟨none, .invoke 4 .admitTile (.var 3) none⟩] 5 =
      some (.finished, [4, 3, 0]) := by decide

/-! ### Witnesses: for every statement with hypotheses, a state and operands that meet them, for each clause -/

theorem witness_word_of_three_bits : 3 ≤ 3 ∧ 3 ≤ 8 := by decide

theorem witness_in_progress : (State.reset.withFetchWord 8 7).call = .inProgress ∧ decodeTableWord 8 7 = some .admitBank := by
  decide

theorem witness_not_in_progress : State.reset.call ≠ .inProgress := by decide

theorem witness_reset_during_and_between :
    (State.reset.withFetchWord 8 0).call = .inProgress ∧ (State.reset.withReply (.raised .invalidPixelValue)).call ≠ .inProgress := by
  decide

theorem witness_select_ranges : (5#3).toNat ≤ 5 ∧ (3#3).toNat ≤ 3 := by decide

theorem witness_last_record_in_range : 4080 + 16 ≤ 4096 ∧ (4079 < 4080 ∨ 4080 + 16 ≤ 4079) ∧ (16 < 0 ∨ 0 + 16 ≤ 16) := by decide

/-- A byte string of a whole bank. -/
def wholeBank : ByteString := List.replicate 4096 0x13

theorem witness_bdec_lengths : (presented (.bdec wholeBank)).inp.data.length = 4096 ∧
    (presented (.bdec (List.replicate 4095 0))).inp.data.length ≠ 4096 ∧
    (presented (.bdec (List.replicate 4097 0))).inp.data.length ≠ 4096 := by
  have h : ∀ (n : Nat) (b : Byte), (presented (.bdec (List.replicate n b))).inp.data.length = n :=
    fun _ _ => List.length_replicate
  exact ⟨h 4096 _, by rw [h]; decide, by rw [h]; decide⟩

theorem goodTile_shape : TileShape goodTile := by unfold TileShape; decide

theorem goodTile_values : TileValues goodTile := by unfold TileValues; decide

theorem witness_admitTile_good : TileShape (presented (.admitTile goodTile)).inp.rawTile ∧
    TileValues (presented (.admitTile goodTile)).inp.rawTile := ⟨goodTile_shape, goodTile_values⟩

theorem witness_admitTile_bad_value :
    TileShape (presented (.admitTile (goodTile.set 7 [0, 0, 0, 0, 0, 0, 0, 4]))).inp.rawTile ∧
    ¬ TileValues (presented (.admitTile (goodTile.set 7 [0, 0, 0, 0, 0, 0, 0, 4]))).inp.rawTile := by
  simp only [State.present_toInvocation, Request.presented_inp, presented, Request.drive]
  unfold TileShape TileValues
  decide

theorem witness_admitTile_bad_shape : ¬ TileShape (presented (.admitTile (List.replicate 9 goodRow))).inp.rawTile ∧
    ¬ TileShape (presented (.admitTile (goodTile.set 3 [0, 1, 2, 3, 0, 1, 2]))).inp.rawTile := by
  simp only [State.present_toInvocation, Request.presented_inp, presented, Request.drive]
  unfold TileShape
  decide

/-- 256 good raw tiles. -/
def goodBank : RawBank := List.replicate 256 goodTile

theorem witness_admitBank_good : BankShape (presented (.admitBank goodBank)).inp.rawBank ∧
    BankValues (presented (.admitBank goodBank)).inp.rawBank := by
  refine ⟨⟨List.length_replicate, fun t ht => ?_⟩, fun t ht => ?_⟩
  · rw [List.eq_of_mem_replicate ht]; exact goodTile_shape
  · rw [List.eq_of_mem_replicate ht]; exact goodTile_values

/-- 256 raw tiles of the right shape, all of value 4. -/
def fours : RawBank := List.replicate 256 (List.replicate 8 (List.replicate 8 4))

theorem witness_admitBank_bad_value : BankShape (presented (.admitBank fours)).inp.rawBank ∧
    ¬ BankValues (presented (.admitBank fours)).inp.rawBank := by
  refine ⟨⟨List.length_replicate, fun t ht => ?_⟩, fun h => ?_⟩
  · rw [List.eq_of_mem_replicate ht]; unfold TileShape; decide
  · have := h (List.replicate 8 (List.replicate 8 4)) (List.mem_replicate.2 ⟨by decide, rfl⟩)
    revert this; unfold TileValues; decide

theorem witness_admitBank_bad_shape : ¬ BankShape (presented (.admitBank (List.replicate 255 goodTile))).inp.rawBank ∧
    ¬ BankShape (presented (.admitBank (List.replicate 257 goodTile))).inp.rawBank := by
  have h : ∀ n : Nat, (presented (.admitBank (List.replicate n goodTile))).inp.rawBank.length = n := fun _ => List.length_replicate
  exact ⟨fun hs => absurd ((h 255).symm.trans hs.1) (by decide), fun hs => absurd ((h 257).symm.trans hs.1) (by decide)⟩

/-- An operation that delivers an output, and one that raises, from reset. -/
theorem witness_exec_next : ∃ s t out, exec .tenc s = .next t ∧ t.reply = some (.ok out) ∧ t.status = some .ok :=
  ⟨State.reset, _, _, rfl, rfl, rfl⟩

theorem witness_exec_raises_size : ∃ s t, exec .bdec s = .next t ∧ s.inp.data.length ≠ 4096 ∧
    t.reply = some (.raised (.invalidBankSize 4096 0)) ∧ t.status ≠ some .ok :=
  ⟨State.reset, State.reset.withReply (.raised (.invalidBankSize 4096 0)), rfl, by decide, rfl, by decide⟩

theorem witness_exec_raises_shape : ∃ s t, exec .admitTile s = .next t ∧ t.reply = some (.raised .invalidBitmapShape) :=
  ⟨State.reset, State.reset.withReply (.raised .invalidBitmapShape), rfl, rfl⟩

theorem witness_exec_raises_shape_bank : ∃ s t, exec .admitBank s = .next t ∧ t.reply = some (.raised .invalidBitmapShape) :=
  ⟨State.reset, State.reset.withReply (.raised .invalidBitmapShape), rfl, rfl⟩

theorem witness_exec_raises_value : ∃ s t, exec .admitTile s = .next t ∧ t.reply = some (.raised .invalidPixelValue) :=
  ⟨presented (.admitTile (goodTile.set 0 [4, 0, 0, 0, 0, 0, 0, 0])),
    (presented (.admitTile (goodTile.set 0 [4, 0, 0, 0, 0, 0, 0, 0]))).withReply (.raised .invalidPixelValue), rfl, rfl⟩

theorem witness_exec_ok_only : Instr.benc ∈ [Instr.tenc, .tdec, .bmux, .bdmx, .benc] ∧ ∃ s t, exec .benc s = .next t :=
  ⟨by decide, State.reset, _, rfl⟩

theorem witness_invoke_raises : ∃ t, State.reset.invoke 7 (.bdec []) = .next t ∧
    t.reply = some (.raised (.invalidBankSize 4096 0)) := ⟨_, rfl, rfl⟩

theorem witness_separable_tiles : (∀ r c : Fin 8, gradient[r][c].getLsbD 0 =
    (mapVec (mapVec fun v => v ^^^ 2) gradient)[r][c].getLsbD 0) ∧
    gradient ≠ mapVec (mapVec (fun v => v ^^^ 2)) gradient := by decide

theorem witness_separable_records : (∀ r : Fin 8, chrRecord[8 * 1 + r.val] = (chrRecord.set 0 0xFF)[8 * 1 + r.val]) ∧
    chrRecord ≠ chrRecord.set 0 0xFF := by decide

theorem witness_whole_bank : wholeBank.length = 4096 := List.length_replicate

theorem witness_conforms : Conforms .bdec Inputs.reset (.raised (.invalidBankSize 4096 0)) := .inr ⟨by decide, rfl⟩

theorem witness_step_from_conforming : DeliveredConforms (presented (.tenc gradient)) ∧
    ∃ t, step (presented (.tenc gradient)) = .next t := by
  refine ⟨?_, _, rfl⟩
  intro v hv reply h
  obtain rfl : v = (presented (.tenc gradient)).toInvocation := by simpa [State.invocations, presented, State.parked] using hv
  simp [presented] at h

/-- A delivered reply that conforms, so that the invariant is met where it says something. -/
theorem witness_delivered_conforms :
    DeliveredConforms { State.reset with op := 5#3, call := .delivered (.raised (.invalidBankSize 4096 0)) } := by
  intro v hv reply h
  obtain rfl : v = ⟨0, 5#3, Inputs.reset, .delivered (.raised (.invalidBankSize 4096 0))⟩ := by
    simpa [State.invocations, State.reset] using hv
  rw [Invocation.reply_eq_some_iff] at h
  injection h with h
  subst h
  exact witness_conforms

/-! ### One instance used by two hosts at the same time (R33, R110, R113) -/

/-- Host 1 presents a byte string of one byte, then host 2 an empty raw tile, before either is performed. -/
def shared : State := (State.reset.present 1 (.bdec [0])).present 2 (.admitTile [])

/-- Both operations in progress are performed, and each host gets its own reply. -/
theorem test_shared_instance :
    (shared.runAlone [.run, .run]).repliesTo 1 = [(.bdec [0], .raised (.invalidBankSize 4096 1))] ∧
    (shared.runAlone [.run, .run]).repliesTo 2 = [(.admitTile [], .raised .invalidBitmapShape)] := ⟨rfl, rfl⟩

/-- With the turn given to host 1, its operation is performed first; host 2's goes on. -/
theorem test_turn :
    (shared.runAlone [.turn 0, .run]).repliesTo 1 = [(.bdec [0], .raised (.invalidBankSize 4096 1))] ∧
    (shared.runAlone [.turn 0, .run]).inProgressCount = 1 := ⟨rfl, rfl⟩

/-- Reset cuts both operations in progress, and closing takes a delivered reply away from its own host alone. -/
theorem test_reset_and_close :
    shared.applyReset.live = [] ∧ ((shared.runAlone [.run, .run]).close 1).repliesTo 1 = [] ∧
    (((shared.runAlone [.run, .run]).close 1).repliesTo 2).length = 1 := ⟨rfl, rfl, rfl⟩

theorem witness_two_in_progress : shared.call = .inProgress ∧ shared.inProgressCount = 2 ∧
    (∃ v ∈ shared.invocations, v.call = .inProgress) ∧ ∃ t, step shared = .next t := ⟨rfl, rfl, ⟨_, List.mem_cons_self, rfl⟩, _, rfl⟩

/-- The turn at a delivered invocation, another one in progress. -/
theorem witness_turn_passes_on : ∃ s, step shared = .next s ∧ s.call ≠ .inProgress ∧
    s.others.findIdx? Invocation.inProgress = some 0 :=
  ⟨shared.withReply (.raised .invalidBitmapShape), rfl, by simp, rfl⟩

theorem witness_none_in_progress : ∀ v ∈ State.reset.invocations, v.call ≠ .inProgress := by
  intro v hv
  obtain rfl : v = State.reset.toInvocation := by simpa [State.invocations] using hv
  simp

/-- Nothing in progress and something delivered. -/
theorem witness_only_delivered : ∀ v ∈ (State.reset.withReply (.raised .invalidPixelValue)).invocations, v.call ≠ .inProgress := by
  intro v hv
  obtain rfl : v = State.reset.toInvocation.answered (.raised .invalidPixelValue) := by simpa using hv
  simp

theorem witness_schedule : ([State.reset] : System)[0]? = some State.reset ∧
    (System.run [State.reset] [⟨0, .present 1 (.bdec [])⟩])[0]? = some (State.reset.present 1 (.bdec [])) ∧
    (∀ v ∈ State.reset.invocations, OwnReply v) ∧
    ∀ a ∈ actionsAt 0 [⟨0, .present 1 (.bdec [])⟩], a.keeps = true := by
  refine ⟨rfl, rfl, ?_, by simp [actionsAt, Action.keeps]⟩
  intro v hv reply h
  obtain rfl : v = State.reset.toInvocation := by simpa [State.invocations] using hv
  simp [Invocation.reply] at h

theorem witness_ownReply :
    OwnReply (((Request.bdec []).presented 1 Inputs.reset).answered (.raised (.invalidBankSize 4096 0))) :=
  fun _ h _ => ⟨_, rfl, h⟩

theorem witness_not_reset : Action.present 1 (.bdec []) ≠ .reset ∧ Action.run ≠ .reset ∧ Action.close 1 ≠ .reset ∧
    Action.turn 0 ≠ .reset := by simp

/-! ### Byte strings and images in host programs (R55, R92, log 18) -/

theorem test_bank_as_bytes : requestOf .bdec (.bank imageA) = some (.bdec imageA.toList) ∧
    requestOf .bdmx (.data [0]) = none := ⟨rfl, rfl⟩

/-! ### More witnesses -/

theorem witness_grid : IsGridOf (Vector.replicate 8 #v[0, 1, 2, 3, 0, 1, 2, 3]) goodTile ∧ ¬ (TileShape [] ∧ TileValues []) := by
  unfold IsGridOf TileShape TileValues
  decide

theorem witness_grids : AreGridsOf (Vector.replicate 256 (Vector.replicate 8 #v[0, 1, 2, 3, 0, 1, 2, 3])) goodBank ∧
    ¬ (BankShape [] ∧ BankValues []) := by
  refine ⟨?_, fun h => absurd h.1.1 (by decide)⟩
  unfold AreGridsOf goodBank
  rw [Vector.toList_replicate, List.map_replicate]
  exact congrArg _ witness_grid.1

/-- A LEN port of the least width presenting a byte string of one record, whatever the buffer holds. -/
theorem witness_dataPort : (⟨lenOnPort 13 16, imageA⟩ : DataPort 13).Presents (List.replicate 16 0) ∧ 13 ≤ 13 ∧
    (List.replicate 16 (0 : Byte)).length < 2 ^ 13 ∧ (List.replicate 16 (0 : Byte)).length ≠ 4096 := by
  refine ⟨⟨by simp, fun h => absurd h (by simp)⟩, by decide, by simp, by simp⟩

/-- A raw tile port of the least width presenting the document's boundary value 4. -/
theorem witness_rawTilePort : 3 ≤ 3 ∧
    (⟨8, Vector.replicate 8 8, Vector.replicate 8 (Vector.replicate 8 4)⟩ : RawTilePort 3).Presents
      (List.replicate 8 (List.replicate 8 4)) := by
  refine ⟨by decide, by simp, fun r row h => ?_⟩
  obtain rfl := List.eq_of_mem_replicate (List.mem_of_getElem? h)
  refine ⟨by simp, fun c v hv => ?_⟩
  obtain rfl := List.eq_of_mem_replicate (List.mem_of_getElem? hv)
  simp [valueOnPort]

/-- A raw bank port presenting no tile at all. -/
theorem witness_rawBankPort :
    (⟨0, Vector.replicate 256 ⟨8, Vector.replicate 8 8, Vector.replicate 8 (Vector.replicate 8 4)⟩⟩ : RawBankPort 3).Presents [] := by
  refine ⟨rfl, fun i t h => ?_⟩
  simp at h

end Sys2Proof.Tests
end

/-! PROOFS. The frame of an operation (10_state.md R17). -/

namespace Sys2Proof.Machine

/-- All that an operation can do: its one next state is the state before with its own reply delivered. -/
theorem exec_eq_next_iff (i : Instr) (s t : State) : exec i s = .next t ↔ t = s.withReply (answer i s.inp) := by
  rw [exec_eq, Host.Outcome.next.injEq, eq_comm]

/-- Settles O21: the only next state of an operation is `s.withReply` of its reply, and `withReply` sets `call` alone. -/
theorem operationsChangeNoInput : Obligations.OperationsChangeNoInput := by
  intro i s t h
  obtain rfl := (exec_eq_next_iff i s t).1 h
  exact ⟨s.toInvocation.answered_inp _, s.toInvocation.answered_op _, s.toInvocation.answered_host _,
    s.withReply_others _, answer i s.inp, s.toInvocation.answered_call _⟩

end Sys2Proof.Machine

/-! PROOFS. A pixel and its two plane bits (30_encoding.md R40). -/

namespace Sys2Proof.Machine

theorem toNat_plane0Bit (v : Pixel) : (plane0Bit v).toNat = v.toNat &&& 1 := BitVec.toNat_and v 1#2

theorem toNat_plane1Bit (v : Pixel) : (plane1Bit v).toNat = (v.toNat >>> 1) &&& 1 := by
  rw [plane1Bit, BitVec.toNat_and, BitVec.toNat_ushiftRight]
  rfl

/-- A pixel is below 4, so its two lowest binary digits are all of it. -/
theorem pixel_toNat_eq_planeBits (v : Pixel) : v.toNat = (plane0Bit v).toNat + 2 * (plane1Bit v).toNat := by
  have hv : v.toNat < 4 := v.isLt
  rw [toNat_plane0Bit, toNat_plane1Bit, Nat.shiftRight_one, Nat.and_one_is_mod, Nat.and_one_is_mod]
  omega

@[simp] theorem assemble_planeBit (v : Pixel) : assemble (planeBit 0 v) (planeBit 1 v) = v := by
  rw [planeBit_eq_getLsbD, planeBit_eq_getLsbD]
  exact assemble_getLsbD v

@[simp] theorem planeBit_assemble (b0 b1 : Bool) (q : Fin 2) :
    planeBit q (assemble b0 b1) = if q = 0 then b0 else b1 := by
  rw [planeBit_eq_getLsbD, getLsbD_assemble]

/-- Settles O8: the encode direction digit by digit, and `assemble` and `planeBit` as inverses of each other. -/
theorem pixelIsItsTwoPlaneBits : Obligations.PixelIsItsTwoPlaneBits :=
  ⟨fun v => ⟨toNat_plane0Bit v, toNat_plane1Bit v, pixel_toNat_eq_planeBits v, assemble_planeBit v⟩,
    fun b0 b1 => ⟨toNat_assemble b0 b1, planeBit_assemble b0 b1 0, planeBit_assemble b0 b1 1⟩⟩

end Sys2Proof.Machine

/-! PROOFS. TENC: the bytes of a record as sums over the columns (30_encoding.md R41, 40_tile_encoder.md R60). -/

namespace Sys2Proof.Machine

open Sys2Proof.Safety

/-- A byte is the sum of its bits, counted from the leftmost column, whose bit is bit 7 (R23). -/
theorem byte_toNat_eq_sum_columns (p : Byte) :
    p.toNat = ∑ c : Fin 8, (p.getLsbD (7 - c.val)).toNat * 2 ^ (7 - c.val) := by
  have hp : p.toNat < 256 := p.isLt
  simp only [BitVec.getLsbD, Nat.toNat_testBit, Fin.sum_univ_eight, Fin.coe_ofNat_eq_mod, Nat.reduceMod, Nat.reduceSub, Nat.reducePow]
  omega

/-- The weight-one digit of a pixel after dropping its k lowest bits (R40). -/
theorem pixel_toNat_getLsbD (v : Pixel) (k : Nat) : (v.getLsbD k).toNat = (v.toNat >>> k) &&& 1 := by
  rw [BitVec.getLsbD, Nat.toNat_testBit, Nat.and_one_is_mod, Nat.shiftRight_eq_div_pow]

/-- The plane-q byte of a row collects bit q of its pixels, column c with weight 2^(7 − c) (R41). -/
theorem toNat_planeByte (q : Fin 2) (w : Row) :
    (planeByte q w).toNat = ∑ c : Fin 8, ((w[c].toNat >>> q.val) &&& 1) * 2 ^ (7 - c.val) := by
  rw [byte_toNat_eq_sum_columns]
  refine Finset.sum_congr rfl fun c _ => ?_
  rw [getLsbD_planeByte, pixel_toNat_getLsbD]

theorem isRecordOf_tenc (t : Tile) : IsRecordOf (tenc t) t := fun q r c => by
  rw [getElem_tenc, getLsbD_planeByte]

/-- Byte 8·q + r of the record as a sum over row r (R60). -/
theorem toNat_getElem_tenc (t : Tile) (q : Fin 2) (r : Fin 8) :
    (tenc t)[8 * q.val + r.val].toNat = ∑ c : Fin 8, ((t[r][c].toNat >>> q.val) &&& 1) * 2 ^ (7 - c.val) := by
  rw [getElem_tenc, toNat_planeByte]

/-- Settles O13: the record is `tenc` of the Tile on the port, whose byte 8·q + r is the plane-q byte of row r. -/
theorem tencDeliversTheRecord : Obligations.TencDeliversTheRecord := by
  refine ⟨rfl, fun s => ⟨tenc s.inp.tile, exec_eq .tenc s, isRecordOf_tenc s.inp.tile, fun r => ⟨?_, ?_⟩⟩⟩
  · simpa using toNat_getElem_tenc s.inp.tile 0 r
  · exact toNat_getElem_tenc s.inp.tile 1 r

end Sys2Proof.Machine

/-! PROOFS. TDEC: the pixels of a Tile from the two plane bytes of their row (30_encoding.md R41, 41_tile_decoder.md R65). -/

namespace Sys2Proof.Machine

open Sys2Proof.Safety

/-- Bit k of a word is its weight-one digit after a shift by k, at every width (R6). -/
theorem toNat_getLsbD_eq_shiftRight_and_one {w : Nat} (v : BitVec w) (k : Nat) :
    (v.getLsbD k).toNat = (v.toNat >>> k) &&& 1 := by
  rw [BitVec.getLsbD, Nat.toNat_testBit, Nat.and_one_is_mod, Nat.shiftRight_eq_div_pow]

/-- A pixel of the decoded Tile is put together from the bits of its column in its row's two plane bytes. -/
theorem getElem_getElem_tdec (rec : TileRecord) (r c : Fin 8) :
    (tdec rec)[r][c] = assemble (rec[r.val].getLsbD (7 - c.val)) (rec[8 + r.val].getLsbD (7 - c.val)) := by
  rw [getElem_tdec, getElem_rowDec]

theorem isTileOf_tdec (rec : TileRecord) : IsTileOf (tdec rec) rec := fun r c => by
  rw [getElem_getElem_tdec, toNat_assemble]

/-- The Tile of a record with its bits read as shifts, the form of R41. -/
theorem toNat_getElem_of_isTileOf {t : Tile} {rec : TileRecord} (h : IsTileOf t rec) (r c : Fin 8) :
    t[r][c].toNat = ((rec[r.val].toNat >>> (7 - c.val)) &&& 1) +
      2 * ((rec[8 + r.val].toNat >>> (7 - c.val)) &&& 1) := by
  rw [h r c, toNat_getLsbD_eq_shiftRight_and_one, toNat_getLsbD_eq_shiftRight_and_one]

/-- Settles O14: the Tile is `tdec` of the record on the port; its shift form follows from its bits, its flat order from R22. -/
theorem tdecDeliversTheTile : Obligations.TdecDeliversTheTile := by
  refine ⟨rfl, fun s => ⟨tdec s.inp.record, exec_eq .tdec s, isTileOf_tdec s.inp.record, fun r c => ⟨?_, ?_⟩⟩⟩
  · exact getElem_pixels (tdec s.inp.record) r c
  · exact toNat_getElem_of_isTileOf (isTileOf_tdec s.inp.record) r c

end Sys2Proof.Machine

/-! PROOFS. BMUX: the image is the records one after another (20_memory.md R27, 42_bank_multiplexer.md R70). -/

namespace Sys2Proof.Machine

open Sys2Proof.Safety

/-- The elements of a flattened vector, in order, are those of its parts one after another. -/
theorem toList_vector_flatten {α : Type} {m n : Nat} (xss : Vector (Vector α n) m) :
    xss.flatten.toList = (xss.toList.map Vector.toList).flatten := by
  simp only [Vector.flatten, Vector.toList_mk, Array.toList_flatten, Array.toList_map, List.map_map]
  rfl

/-- Byte 16·i + k of the image lies at the offset of byte k of record i (R27). -/
theorem isImageOf_bmux (recs : RecordBank) : IsImageOf (bmux recs) recs := fun i k => by
  have h : (bmux recs)[bankByte i k] = recs[i][k] := by
    simp only [getElem_bmux, tileOfOffset_bankByte, byteOfOffset_bankByte]
  exact h

/-- Both read offset a at byte a mod 16 of record a div 16. -/
theorem bmux_eq_flatten (recs : RecordBank) : bmux recs = recs.flatten := by
  refine Vector.ext fun a ha => ?_
  rw [Vector.getElem_flatten]
  exact getElem_bmux recs ⟨a, ha⟩

/-- `bank = recs[0] ++ recs[1] ++ ... ++ recs[255]` (R70). -/
theorem toList_bmux (recs : RecordBank) : (bmux recs).toList = (recs.toList.map Vector.toList).flatten := by
  rw [bmux_eq_flatten]
  exact toList_vector_flatten recs

/-- Settles O15: the image is `bmux` of the records on the port, given per record byte, per offset and as a concatenation. -/
theorem bmuxDeliversTheConcatenation : Obligations.BmuxDeliversTheConcatenation :=
  ⟨rfl, fun s => ⟨bmux s.inp.recs, exec_eq .bmux s, isImageOf_bmux s.inp.recs, getElem_bmux s.inp.recs,
    toList_bmux s.inp.recs⟩⟩

end Sys2Proof.Machine

/-! PROOFS. BDMX: the records are cut from the image at a 16-byte stride (20_memory.md R27, 43_bank_demultiplexer.md R75). -/

namespace Sys2Proof.Machine

open Sys2Proof.Safety

/-- The relation of R27 holds with BDMX on the record side, as `isImageOf_bmux` says for BMUX. -/
theorem isImageOf_bdmx (bank : BankImage) : IsImageOf bank (bdmx bank) := fun i k =>
  (getElem_bdmx bank i k).symm

/-- Each record is one read at its stride (R29, R75). -/
theorem getElem_bdmx_eq_memRead (bank : BankImage) (i : Fin 256) :
    (bdmx bank)[i] = memRead bank (16 * i.val) 16 (by omega) := by
  simp [bdmx]

/-- A read of m bytes that begins d bytes into another read, and ends within it, gives the same bytes (R29). -/
theorem getElem_memRead_add (bank : BankImage) (a n d m : Nat) (h : a + n ≤ 4096) (hdm : d + m ≤ n)
    (j : Fin m) : (memRead bank a n h)[d + j.val] = (memRead bank (a + d) m (by omega))[j] := by
  simp only [Fin.getElem_fin, getElem_memRead, Nat.add_assoc]

/-- Settles O16: a record is one 16-byte read of the image on the port, and its planes are the two 8-byte reads inside it. -/
theorem bdmxDeliversTheRecords : Obligations.BdmxDeliversTheRecords := by
  refine ⟨rfl, fun s => ⟨bdmx s.inp.bank, exec_eq .bdmx s, isImageOf_bdmx s.inp.bank, fun i =>
    ⟨getElem_bdmx_eq_memRead s.inp.bank i, fun r => ?_⟩⟩⟩
  rw [getElem_bdmx_eq_memRead]
  constructor
  · simpa using getElem_memRead_add s.inp.bank (16 * i.val) 16 0 8 (by omega) (by omega) r
  · exact getElem_memRead_add s.inp.bank (16 * i.val) 16 8 8 (by omega) (by omega) r

end Sys2Proof.Machine

/-! PROOFS. BENC: the image of 256 Tiles, as BMUX over the records of TENC (44_bank_codec.md R82). -/

namespace Sys2Proof.Machine

open Sys2Proof.Safety

/-- Lane i of a bank depends on element i of its input alone (40_tile_encoder.md R61). -/
theorem getElem_mapVec {α β : Type} {n : Nat} (f : α → β) (v : Vector α n) (i : Fin n) : (mapVec f v)[i] = f v[i] := by
  simp

/-- R27 after R60: an image of the records of 256 Tiles is an image of the Tiles. -/
theorem isImageOfTiles_of_isRecordOf {bank : BankImage} {recs : RecordBank} {tiles : TileBank}
    (himage : IsImageOf bank recs) (hrecs : ∀ i : Fin 256, IsRecordOf recs[i] tiles[i]) :
    IsImageOfTiles bank tiles := fun i q r c => by
  have hbyte : bank[16 * i.val + 8 * q.val + r.val] = recs[i][8 * q.val + r.val] := by
    simpa [Nat.add_assoc] using himage i (recordByte q r)
  rw [hbyte, hrecs i q r c]

/-- Every lane of BENC is TENC of its own Tile (R82). -/
theorem isRecordOf_mapVec_tenc (tiles : TileBank) (i : Fin 256) : IsRecordOf (mapVec tenc tiles)[i] tiles[i] := by
  rw [getElem_mapVec]
  exact isRecordOf_tenc tiles[i]

theorem isImageOfTiles_benc (tiles : TileBank) : IsImageOfTiles (benc tiles) tiles :=
  isImageOfTiles_of_isRecordOf (isImageOf_bmux (mapVec tenc tiles)) (isRecordOf_mapVec_tenc tiles)

/-- Settles O17: the image is `benc` of the Tiles on the port, that is `bmux` of the bank of their `tenc` records. -/
theorem bencDeliversTheImage : Obligations.BencDeliversTheImage :=
  ⟨rfl, fun s => ⟨benc s.inp.tiles, exec_eq .benc s, isImageOfTiles_benc s.inp.tiles, mapVec tenc s.inp.tiles, rfl,
    fun i => ⟨getElem_mapVec tenc s.inp.tiles i, isRecordOf_mapVec_tenc s.inp.tiles i⟩⟩⟩

end Sys2Proof.Machine

/-! PROOFS. BDEC: 256 Tiles, as TDEC over the records of BDMX, or InvalidBankSize (44_bank_codec.md R83). -/

namespace Sys2Proof.Machine

open Sys2Proof.Safety

/-- The 4096 bytes as a Bank image are the same bytes in the same order (R30). -/
theorem toList_bankOfBytes (data : ByteString) (h : data.length = 4096) : (bankOfBytes data h).toList = data := rfl

/-- R65 after R27: the Tiles of the records of an image are the Tiles of its bytes. -/
theorem areTilesOf_of_isTileOf {data : ByteString} (h : data.length = 4096) {recs : RecordBank} {tiles : TileBank}
    (himage : IsImageOf (bankOfBytes data h) recs) (htiles : ∀ i : Fin 256, IsTileOf tiles[i] recs[i]) :
    AreTilesOf tiles data h := fun i r c => by
  have hbyte (k : Fin 16) : recs[i][k] = data[16 * i.val + k.val] :=
    (himage i k).symm.trans (getElem_bankOfBytes data h (bankByte i k))
  have hplane0 : recs[i][r.val] = data[16 * i.val + r.val] := by
    simpa using hbyte (recordByte 0 r)
  have hplane1 : recs[i][8 + r.val] = data[16 * i.val + 8 + r.val] := by
    simpa [Nat.add_assoc] using hbyte (recordByte 1 r)
  rw [htiles i r c, hplane0, hplane1]

/-- The Tiles that BDEC computes from a whole bank (R83). -/
theorem areTilesOf_map_tdec_bdmx (data : ByteString) (h : data.length = 4096) :
    AreTilesOf ((bdmx (bankOfBytes data h)).map tdec) data h :=
  areTilesOf_of_isTileOf h (isImageOf_bdmx (bankOfBytes data h)) fun i => by
    have htile : ((bdmx (bankOfBytes data h)).map tdec)[i] = tdec (bdmx (bankOfBytes data h))[i] :=
      Vector.getElem_map tdec i.isLt
    rw [htile]
    exact isTileOf_tdec _

theorem exec_bdec_of_length (s : State) (h : s.inp.data.length = 4096) :
    exec .bdec s = .next (s.withReply (.ok (.tiles ((bdmx (bankOfBytes s.inp.data h)).map tdec)))) := by
  rw [exec_eq, answer, bdec_of_length s.inp.data h]
  rfl

theorem exec_bdec_of_length_ne (s : State) (h : s.inp.data.length ≠ 4096) :
    exec .bdec s = .next (s.withReply (.raised (.invalidBankSize 4096 s.inp.data.length))) := by
  rw [exec_eq, answer, bdec_of_length_ne s.inp.data h]
  rfl

/-- Settles O18: the length decides; a whole bank gives TDEC of each record that BDMX cuts out of it. -/
theorem bdecDeliversTheTilesOrRaises : Obligations.BdecDeliversTheTilesOrRaises :=
  ⟨rfl, fun s => ⟨fun h => ⟨(bdmx (bankOfBytes s.inp.data h)).map tdec, exec_bdec_of_length s h,
      areTilesOf_map_tdec_bdmx s.inp.data h, bankOfBytes s.inp.data h, toList_bankOfBytes s.inp.data h,
      fun i => Vector.getElem_map tdec i.isLt⟩,
    exec_bdec_of_length_ne s⟩⟩

end Sys2Proof.Machine

/-! PROOFS. TENC and TDEC undo one another, through two invocations (45_laws.md R90, R91). -/

namespace Sys2Proof.Machine

open Sys2Proof.Safety

theorem tile_ext (t u : Tile) (h : ∀ r c : Fin 8, t[r][c] = u[r][c]) : t = u :=
  Vector.ext fun r hr => Vector.ext fun c hc => h ⟨r, hr⟩ ⟨c, hc⟩

/-- The bytes 8·q + r are all the bytes of a record (R24). -/
theorem record_ext (x y : TileRecord)
    (h : ∀ q : Fin 2, ∀ r : Fin 8, x[8 * q.val + r.val] = y[8 * q.val + r.val]) : x = y := by
  refine Vector.ext fun k hk => ?_
  have hsplit : 8 * (k / 8) + k % 8 = k := Nat.div_add_mod k 8
  simpa only [hsplit] using h ⟨k / 8, by omega⟩ ⟨k % 8, by omega⟩

/-! ### The relation of R60 pairs every record with one Tile -/

theorem record_eq_of_isRecordOf {x y : TileRecord} {t : Tile} (hx : IsRecordOf x t) (hy : IsRecordOf y t) : x = y :=
  record_ext x y fun q r => byte_ext _ _ fun c => (hx q r c).trans (hy q r c).symm

theorem tile_eq_of_isRecordOf {rec : TileRecord} {t u : Tile} (ht : IsRecordOf rec t) (hu : IsRecordOf rec u) : t = u :=
  tile_ext t u fun r c => pixel_ext _ _ fun q => (ht q r c).symm.trans (hu q r c)

/-- A record is the record of the Tile decoded from it: bit q of an assembled pixel is the bit its plane q gave (R40). -/
theorem isRecordOf_tdec (rec : TileRecord) : IsRecordOf rec (tdec rec) := fun q r c => by
  rw [getElem_getElem_tdec, getLsbD_assemble]
  fin_cases q <;> simp

@[simp] theorem tdec_tenc (t : Tile) : tdec (tenc t) = t :=
  tile_eq_of_isRecordOf (isRecordOf_tdec (tenc t)) (isRecordOf_tenc t)

@[simp] theorem tenc_tdec (rec : TileRecord) : tenc (tdec rec) = rec :=
  record_eq_of_isRecordOf (isRecordOf_tenc (tdec rec)) (isRecordOf_tdec rec)

/-! ### One invocation after another -/

@[simp] theorem ownReply_tenc (t : Tile) : (Request.tenc t).ownReply = .ok (.record (tenc t)) := rfl

@[simp] theorem ownReply_tdec (rec : TileRecord) : (Request.tdec rec).ownReply = .ok (.tile (tdec rec)) := rfl

/-- Every invocation completes, from any state and for any host, and is answered with its request's own reply. -/
theorem exists_invoke_eq_next (h : Nat) (q : Request) (s : State) :
    ∃ t : State, s.invoke h q = .next t ∧ t.reply = some q.ownReply :=
  ⟨(s.present h q).withReply q.ownReply, invoke_eq h q s, (s.present h q).toInvocation.answered_reply _⟩

/-- Settles O30: TENC answers with `tenc t`, and TDEC of it with `tdec (tenc t)`, which is `t`. -/
theorem decodingAnEncodedTileGivesItBack : Obligations.DecodingAnEncodedTileGivesItBack := by
  intro h h2 s t
  obtain ⟨s1, hinvoke1, hreply1⟩ := exists_invoke_eq_next h (.tenc t) s
  obtain ⟨s2, hinvoke2, hreply2⟩ := exists_invoke_eq_next h2 (.tdec (tenc t)) s1
  rw [ownReply_tdec, tdec_tenc] at hreply2
  exact ⟨s1, s2, tenc t, hinvoke1, hreply1, hinvoke2, hreply2⟩

/-- Settles O31: TDEC answers with `tdec rec`, and TENC of it with `tenc (tdec rec)`, which is `rec`. -/
theorem encodingADecodedRecordGivesItBack : Obligations.EncodingADecodedRecordGivesItBack := by
  intro h h2 s rec
  obtain ⟨s1, hinvoke1, hreply1⟩ := exists_invoke_eq_next h (.tdec rec) s
  obtain ⟨s2, hinvoke2, hreply2⟩ := exists_invoke_eq_next h2 (.tenc (tdec rec)) s1
  rw [ownReply_tenc, tenc_tdec] at hreply2
  exact ⟨s1, s2, tdec rec, hinvoke1, hreply1, hinvoke2, hreply2⟩

end Sys2Proof.Machine

/-! PROOFS. What is delivered is of its operation's output domain (45_laws.md R94). -/

namespace Sys2Proof.Machine

theorem reply_of_exec {i : Instr} {s t : State} (h : exec i s = .next t) : t.reply = some (answer i s.inp) := by
  rw [(exec_eq_next_iff i s t).1 h]
  exact s.toInvocation.answered_reply _

/-- An operation that may fail delivers only what its check accepted. -/
theorem replyOf_map_eq_ok_iff {α : Type} (f : α → Output) (r : Except Error α) (out : Output) :
    replyOf (r.map f) = .ok out ↔ ∃ a, r = .ok a ∧ out = f a := by
  cases r with
  | error e => simp [Except.map]
  | ok a => simp [Except.map, eq_comm]

theorem Invocation.status_of_reply_ok (v : Invocation) (out : Output) (h : v.reply = some (.ok out)) :
    v.status = some .ok := by
  rw [Invocation.status, h]
  rfl

/-! ### The sizes that the domains carry (10_state.md R14) -/

theorem tile_sizes (x : Tile) : x.toList.length = 8 ∧ ∀ row ∈ x.toList, row.toList.length = 8 :=
  ⟨x.length_toList, fun row _ => row.length_toList⟩

theorem recordBank_sizes (rs : RecordBank) : rs.toList.length = 256 ∧ ∀ r ∈ rs.toList, r.toList.length = 16 :=
  ⟨rs.length_toList, fun r _ => r.length_toList⟩

theorem tileBank_sizes (ts : TileBank) : ts.toList.length = 256 ∧
    ∀ x ∈ ts.toList, x.toList.length = 8 ∧ ∀ row ∈ x.toList, row.toList.length = 8 :=
  ⟨ts.length_toList, fun x _ => tile_sizes x⟩

/-- Settles O29: the output is read off the operation's own reply; with an output delivered, the status is OK. -/
theorem outputsHaveTheirDomainsAndSizes : Obligations.OutputsHaveTheirDomainsAndSizes := by
  refine ⟨fun i s t out hexec hreply => ?_, fun i s t _ hstatus out hreply => ?_⟩
  · have hout : answer i s.inp = .ok out := Option.some.inj ((reply_of_exec hexec).symm.trans hreply)
    cases i with
    | tenc => exact ⟨tenc s.inp.tile, (Reply.ok.inj hout).symm, Vector.length_toList⟩
    | tdec => exact ⟨tdec s.inp.record, (Reply.ok.inj hout).symm, tile_sizes _⟩
    | bmux => exact ⟨bmux s.inp.recs, (Reply.ok.inj hout).symm, Vector.length_toList⟩
    | bdmx => exact ⟨bdmx s.inp.bank, (Reply.ok.inj hout).symm, recordBank_sizes _⟩
    | benc => exact ⟨benc s.inp.tiles, (Reply.ok.inj hout).symm, Vector.length_toList⟩
    | bdec =>
      obtain ⟨ts, -, rfl⟩ := (replyOf_map_eq_ok_iff .tiles _ out).1 hout
      exact ⟨ts, rfl, tileBank_sizes ts⟩
    | admitTile =>
      obtain ⟨x, -, rfl⟩ := (replyOf_map_eq_ok_iff .tile _ out).1 hout
      exact ⟨x, rfl, tile_sizes x⟩
    | admitBank =>
      obtain ⟨ts, -, rfl⟩ := (replyOf_map_eq_ok_iff .tiles _ out).1 hout
      exact ⟨ts, rfl, tileBank_sizes ts⟩
  · exact hstatus (t.toInvocation.status_of_reply_ok out hreply)

end Sys2Proof.Machine

/-! PROOFS. Which operation raises which error, and exactly when (60_exceptions.md R102, R103, R105). -/

namespace Sys2Proof.Machine

open Sys2Proof.Safety

/-! ### Wrong shapes and values, written out -/

theorem not_tileShape_iff (raw : RawTile) : ¬ TileShape raw ↔ raw.length ≠ 8 ∨ ∃ row ∈ raw, row.length ≠ 8 := by
  rw [TileShape, not_and_or]
  push Not
  rfl

theorem not_bankShape_iff (raw : RawBank) : ¬ BankShape raw ↔
    raw.length ≠ 256 ∨ ∃ t ∈ raw, t.length ≠ 8 ∨ ∃ row ∈ t, row.length ≠ 8 := by
  rw [BankShape, not_and_or]
  push Not
  simp only [not_tileShape_iff]

theorem not_tileValues_iff (raw : RawTile) : ¬ TileValues raw ↔ ∃ row ∈ raw, ∃ v ∈ row, v > 3 := by
  rw [TileValues]
  push Not
  rfl

theorem not_bankValues_iff (raw : RawBank) : ¬ BankValues raw ↔ ∃ t ∈ raw, ∃ row ∈ t, ∃ v ∈ row, v > 3 := by
  rw [BankValues]
  push Not
  simp only [not_tileValues_iff]

/-! ### When a check fails, and with which error -/

theorem admitTile_eq_error_iff (raw : RawTile) (e : Error) : admitTile raw = .error e ↔
    (¬ TileShape raw ∧ e = .invalidBitmapShape) ∨ (TileShape raw ∧ ¬ TileValues raw ∧ e = .invalidPixelValue) := by
  obtain ⟨hs, hv, h⟩ | ⟨hs, hv, h⟩ | ⟨hs, h⟩ := admitTile_cases raw
  · simp [h, hs, hv]
  · simp [h, hs, hv, eq_comm]
  · simp [h, hs, eq_comm]

theorem admitBank_eq_error_iff (raw : RawBank) (e : Error) : admitBank raw = .error e ↔
    (¬ BankShape raw ∧ e = .invalidBitmapShape) ∨ (BankShape raw ∧ ¬ BankValues raw ∧ e = .invalidPixelValue) := by
  obtain ⟨hs, hv, h⟩ | ⟨hs, hv, h⟩ | ⟨hs, h⟩ := admitBank_cases raw
  · simp [h, hs, hv]
  · simp [h, hs, hv, eq_comm]
  · simp [h, hs, eq_comm]

theorem bdec_eq_error_iff (data : ByteString) (e : Error) :
    bdec data = .error e ↔ data.length ≠ 4096 ∧ e = .invalidBankSize 4096 data.length := by
  by_cases h : data.length = 4096
  · simp [bdec_of_length data h, h]
  · simp [bdec_of_length_ne data h, h, eq_comm]

/-! ### From the checks to the replies -/

theorem replyOf_map_eq_raised_iff {α : Type} (f : α → Output) (r : Except Error α) (e : Error) :
    replyOf (r.map f) = .raised e ↔ r = .error e := by
  cases r with
  | error e' => simp [Except.map]
  | ok a => simp [Except.map]

theorem reply_eq_some_iff_answer {i : Instr} {s t : State} (h : exec i s = .next t) (reply : Reply) :
    t.reply = some reply ↔ answer i s.inp = reply := by
  rw [reply_of_exec h, Option.some.injEq]

theorem exec_admitTile_raised_iff {s t : State} (h : exec .admitTile s = .next t) (e : Error) :
    t.reply = some (.raised e) ↔ admitTile s.inp.rawTile = .error e :=
  (reply_eq_some_iff_answer h _).trans (replyOf_map_eq_raised_iff _ _ e)

theorem exec_admitBank_raised_iff {s t : State} (h : exec .admitBank s = .next t) (e : Error) :
    t.reply = some (.raised e) ↔ admitBank s.inp.rawBank = .error e :=
  (reply_eq_some_iff_answer h _).trans (replyOf_map_eq_raised_iff _ _ e)

theorem exec_bdec_raised_iff {s t : State} (h : exec .bdec s = .next t) (e : Error) :
    t.reply = some (.raised e) ↔ bdec s.inp.data = .error e :=
  (reply_eq_some_iff_answer h _).trans (replyOf_map_eq_raised_iff _ _ e)

/-- An operation raises only what the last column of the table of 10_state.md section 3 gives it (R115). -/
theorem mayRaise_of_reply {i : Instr} {s t : State} {e : Error} (h : exec i s = .next t)
    (hreply : t.reply = some (.raised e)) : mayRaise i e = true := by
  cases i with
  | tenc | tdec | bmux | bdmx | benc => exact nomatch (reply_eq_some_iff_answer h _).1 hreply
  | bdec =>
    obtain ⟨-, rfl⟩ := (bdec_eq_error_iff _ e).1 ((exec_bdec_raised_iff h e).1 hreply)
    rfl
  | admitTile =>
    obtain ⟨-, rfl⟩ | ⟨-, -, rfl⟩ := (admitTile_eq_error_iff _ e).1 ((exec_admitTile_raised_iff h e).1 hreply) <;> rfl
  | admitBank =>
    obtain ⟨-, rfl⟩ | ⟨-, -, rfl⟩ := (admitBank_eq_error_iff _ e).1 ((exec_admitBank_raised_iff h e).1 hreply) <;> rfl

/-! ### The rows of the table of R115 -/

theorem mayRaise_invalidBitmapShape_iff (i : Instr) :
    mayRaise i .invalidBitmapShape = true ↔ i = .admitTile ∨ i = .admitBank := by
  cases i <;> decide

theorem mayRaise_invalidPixelValue_iff (i : Instr) :
    mayRaise i .invalidPixelValue = true ↔ i = .admitTile ∨ i = .admitBank := by
  cases i <;> decide

theorem mayRaise_invalidBankSize_iff (i : Instr) (expected actual : Nat) :
    mayRaise i (.invalidBankSize expected actual) = true ↔ i = .bdec := by
  cases i <;> simp [mayRaise]

/-! ### The three errors -/

/-- Settles O22: the shape error is the first of the two ways in which an admission check fails. -/
theorem shapeErrorExactlyOnAWrongCount : Obligations.ShapeErrorExactlyOnAWrongCount := by
  refine ⟨fun s t h => ?_, fun s t h => ?_, fun i s t h hreply => ?_⟩
  · rw [exec_admitTile_raised_iff h, admitTile_eq_error_iff, ← not_tileShape_iff]
    simp
  · rw [exec_admitBank_raised_iff h, admitBank_eq_error_iff, ← not_bankShape_iff]
    simp
  · exact (mayRaise_invalidBitmapShape_iff i).1 (mayRaise_of_reply h hreply)

/-- Settles O23: the value error is the second way, which the check comes to only with the shape right (D8). -/
theorem valueErrorExactlyOnAValueAboveThree : Obligations.ValueErrorExactlyOnAValueAboveThree := by
  refine ⟨fun s t h => ?_, fun s t h => ?_, fun i s t h hreply => ?_, by decide⟩
  · rw [exec_admitTile_raised_iff h, admitTile_eq_error_iff, ← not_tileValues_iff]
    simp
  · rw [exec_admitBank_raised_iff h, admitBank_eq_error_iff, ← not_bankValues_iff]
    simp
  · exact (mayRaise_invalidPixelValue_iff i).1 (mayRaise_of_reply h hreply)

/-- Settles O24: only BDEC may raise this error, and its check fails exactly on a wrong length, with both sizes. -/
theorem bankSizeErrorCarriesBothSizes : Obligations.BankSizeErrorCarriesBothSizes := by
  refine ⟨fun i s t expected actual h hreply => ?_, fun s t hlen h => ?_⟩
  · obtain rfl := (mayRaise_invalidBankSize_iff i expected actual).1 (mayRaise_of_reply h hreply)
    obtain ⟨hlen, herror⟩ := (bdec_eq_error_iff _ _).1 ((exec_bdec_raised_iff h _).1 hreply)
    obtain ⟨hexpected, hactual⟩ := Error.invalidBankSize.inj herror
    exact ⟨rfl, hlen, hexpected, hactual⟩
  · exact (exec_bdec_raised_iff h _).2 (bdec_of_length_ne s.inp.data hlen)

end Sys2Proof.Machine

/-! PROOFS. The framing and the bank codec are one to one both ways (45_laws.md R91, R92, R93, 42_bank_multiplexer.md). -/

namespace Sys2Proof.Machine

open Sys2Proof.Safety

/-! ### The relations of R27 and R82 pair every image with one bank -/

theorem records_ext (x y : RecordBank) (h : ∀ (i : Fin 256) (k : Fin 16), x[i][k] = y[i][k]) : x = y :=
  Vector.ext fun i hi => Vector.ext fun k hk => h ⟨i, hi⟩ ⟨k, hk⟩

theorem tiles_ext (x y : TileBank) (h : ∀ (i : Fin 256) (r c : Fin 8), x[i][r][c] = y[i][r][c]) : x = y :=
  Vector.ext fun i hi => tile_ext _ _ (h ⟨i, hi⟩)

/-- Every offset is byte k of some record i (R37). -/
theorem image_ext (x y : BankImage) (h : ∀ (i : Fin 256) (k : Fin 16), x[16 * i.val + k.val] = y[16 * i.val + k.val]) :
    x = y := by
  refine Vector.ext fun a ha => ?_
  have hsplit : 16 * (a / 16) + a % 16 = a := Nat.div_add_mod a 16
  simpa only [hsplit] using h ⟨a / 16, by omega⟩ ⟨a % 16, by omega⟩

theorem image_eq_of_isImageOf {x y : BankImage} {recs : RecordBank} (hx : IsImageOf x recs) (hy : IsImageOf y recs) :
    x = y :=
  image_ext x y fun i k => (hx i k).trans (hy i k).symm

theorem records_eq_of_isImageOf {bank : BankImage} {x y : RecordBank} (hx : IsImageOf bank x) (hy : IsImageOf bank y) :
    x = y :=
  records_ext x y fun i k => (hx i k).symm.trans (hy i k)

/-- The offsets 16·i + 8·q + r are all the offsets, and the bits 7 − c all the bits of a byte (R27). -/
theorem image_eq_of_isImageOfTiles {x y : BankImage} {tiles : TileBank} (hx : IsImageOfTiles x tiles)
    (hy : IsImageOfTiles y tiles) : x = y := by
  refine Vector.ext fun a ha => byte_ext _ _ fun c => ?_
  have hsplit : 16 * (a / 16) + 8 * (a % 16 / 8) + a % 8 = a := by omega
  simpa only [hsplit] using (hx ⟨a / 16, by omega⟩ ⟨a % 16 / 8, by omega⟩ ⟨a % 8, by omega⟩ c).trans (hy _ _ _ c).symm

@[simp] theorem bdmx_bmux (recs : RecordBank) : bdmx (bmux recs) = recs :=
  records_eq_of_isImageOf (isImageOf_bdmx (bmux recs)) (isImageOf_bmux recs)

@[simp] theorem bmux_bdmx (bank : BankImage) : bmux (bdmx bank) = bank :=
  image_eq_of_isImageOf (isImageOf_bmux (bdmx bank)) (isImageOf_bdmx bank)

/-! ### BENC and the data path of BDEC -/

theorem benc_map_tdec_bdmx (bank : BankImage) : benc ((bdmx bank).map tdec) = bank := by
  simp [benc, Function.comp_def]

theorem map_tdec_bdmx_benc (tiles : TileBank) : (bdmx (benc tiles)).map tdec = tiles := by
  simp [benc, Function.comp_def]

theorem bankOfBytes_toList (bank : BankImage) : bankOfBytes bank.toList bank.length_toList = bank :=
  Vector.toList_inj.1 (toList_bankOfBytes _ _)

theorem bdec_toList_benc (tiles : TileBank) : bdec (benc tiles).toList = .ok tiles := by
  rw [bdec_of_length _ (benc tiles).length_toList, bankOfBytes_toList, map_tdec_bdmx_benc]

/-! ### The replies of the requests -/

@[simp] theorem ownReply_bmux (recs : RecordBank) : (Request.bmux recs).ownReply = .ok (.bank (bmux recs)) := rfl

@[simp] theorem ownReply_bdmx (bank : BankImage) : (Request.bdmx bank).ownReply = .ok (.recs (bdmx bank)) := rfl

@[simp] theorem ownReply_benc (tiles : TileBank) : (Request.benc tiles).ownReply = .ok (.bank (benc tiles)) := rfl

@[simp] theorem ownReply_bdec (data : ByteString) :
    (Request.bdec data).ownReply = replyOf ((bdec data).map .tiles) := rfl

/-- Settles O32: BDEC answers with the Tiles of the image, of which BENC is the same image, and the other way round. -/
theorem bankCodecRoundTripsBothWays : Obligations.BankCodecRoundTripsBothWays := by
  refine ⟨fun h h2 s data hlen => ?_, fun h h2 s ts => ?_⟩
  · obtain ⟨s1, hinvoke1, hreply1⟩ := exists_invoke_eq_next h (.bdec data) s
    obtain ⟨s2, hinvoke2, hreply2⟩ := exists_invoke_eq_next h2 (.benc ((bdmx (bankOfBytes data hlen)).map tdec)) s1
    rw [ownReply_bdec, bdec_of_length data hlen] at hreply1
    rw [ownReply_benc, benc_map_tdec_bdmx] at hreply2
    exact ⟨s1, s2, _, _, hinvoke1, hreply1, hinvoke2, hreply2, toList_bankOfBytes data hlen⟩
  · obtain ⟨s1, hinvoke1, hreply1⟩ := exists_invoke_eq_next h (.benc ts) s
    obtain ⟨s2, hinvoke2, hreply2⟩ := exists_invoke_eq_next h2 (.bdec (benc ts).toList) s1
    rw [ownReply_bdec, bdec_toList_benc] at hreply2
    exact ⟨s1, s2, benc ts, hinvoke1, hreply1, hinvoke2, hreply2⟩

/-- Settles O33: BDMX of `bmux recs` is `recs`, and BMUX of `bdmx bank` is `bank`. -/
theorem framingRoundTripsBothWays : Obligations.FramingRoundTripsBothWays := by
  refine ⟨fun h h2 s recs => ?_, fun h h2 s bank => ?_⟩
  · obtain ⟨s1, hinvoke1, hreply1⟩ := exists_invoke_eq_next h (.bmux recs) s
    obtain ⟨s2, hinvoke2, hreply2⟩ := exists_invoke_eq_next h2 (.bdmx (bmux recs)) s1
    rw [ownReply_bdmx, bdmx_bmux] at hreply2
    exact ⟨s1, s2, bmux recs, hinvoke1, hreply1, hinvoke2, hreply2⟩
  · obtain ⟨s1, hinvoke1, hreply1⟩ := exists_invoke_eq_next h (.bdmx bank) s
    obtain ⟨s2, hinvoke2, hreply2⟩ := exists_invoke_eq_next h2 (.bmux (bdmx bank)) s1
    rw [ownReply_bmux, bmux_bdmx] at hreply2
    exact ⟨s1, s2, bdmx bank, hinvoke1, hreply1, hinvoke2, hreply2⟩

/-- Settles O34: each transform has the other of its pair as its inverse on both sides. -/
theorem codecOperationsAreBijections : Obligations.CodecOperationsAreBijections :=
  ⟨Function.bijective_iff_has_inverse.2 ⟨tdec, tdec_tenc, tenc_tdec⟩,
    Function.bijective_iff_has_inverse.2 ⟨tenc, tenc_tdec, tdec_tenc⟩,
    Function.bijective_iff_has_inverse.2 ⟨bdmx, bdmx_bmux, bmux_bdmx⟩,
    Function.bijective_iff_has_inverse.2 ⟨bmux, bmux_bdmx, bdmx_bmux⟩,
    Function.bijective_iff_has_inverse.2
      ⟨fun bank => (bdmx bank).map tdec, map_tdec_bdmx_benc, benc_map_tdec_bdmx⟩⟩

end Sys2Proof.Machine

/-! PROOFS. Reads and writes of a Bank image, and BMUX as 256 writes (20_memory.md R29, 42_bank_multiplexer.md R70). -/

namespace Sys2Proof.Machine

open Sys2Proof.Safety

theorem getElem_memWrite_of_not_mem (k : BankImage) (a n : Nat) (v : Vector Byte n) (h : a + n ≤ 4096) (b : Nat)
    (hb : b < 4096) (hout : b < a ∨ a + n ≤ b) : (memWrite k a n v h)[b] = k[b] := by
  rw [getElem_memWrite, dif_neg (by omega)]

theorem memRead_memWrite (k : BankImage) (a n : Nat) (v : Vector Byte n) (h : a + n ≤ 4096) :
    memRead (memWrite k a n v h) a n h = v := by
  refine Vector.ext fun j hj => ?_
  rw [getElem_memRead, getElem_memWrite, dif_pos (by omega)]
  simp only [Nat.add_sub_cancel_left]

theorem memWrite_memRead (k : BankImage) (a n : Nat) (h : a + n ≤ 4096) : memWrite k a n (memRead k a n h) h = k := by
  refine Vector.ext fun b hb => ?_
  rw [getElem_memWrite]
  split
  · next hin =>
    have hback : a + (b - a) = b := by omega
    simp only [getElem_memRead, hback]
  · rfl

/-- Settles O12: read after write, write of what was read, and the frame of a write. -/
theorem bankReadAndWriteLaws : Obligations.BankReadAndWriteLaws := fun k a n v h =>
  ⟨fun j => getElem_memRead k a n h j.val j.isLt, memRead_memWrite k a n v h, memWrite_memRead k a n h,
    fun b hb hout => getElem_memWrite_of_not_mem k a n v h b hb hout⟩

/-- The record-wide write of record i replaces the bytes of record i and of no other (R27). -/
theorem getElem_memWrite_record (k : BankImage) (i i' : Fin 256) (v : TileRecord) (j : Fin 16) :
    (memWrite k (16 * i.val) 16 v (by omega))[16 * i'.val + j.val] =
      if i' = i then v[j] else k[16 * i'.val + j.val] := by
  rw [getElem_memWrite]
  by_cases hi : i' = i
  · subst hi
    simp
  · have hne : i'.val ≠ i.val := Fin.val_ne_of_ne hi
    rw [dif_neg (by omega), if_neg hi]

/-- After the writes of some of the records, their bytes are those of the records and the others are what they were. -/
theorem getElem_foldl_memWrite (recs : RecordBank) (l : List (Fin 256)) (start : BankImage) (i : Fin 256) (j : Fin 16) :
    (l.foldl (fun k i => memWrite k (16 * i.val) 16 recs[i] (by omega)) start)[16 * i.val + j.val] =
      if i ∈ l then recs[i][j] else start[16 * i.val + j.val] := by
  induction l generalizing start with
  | nil => simp
  | cons x l ih =>
    rw [List.foldl_cons, ih, getElem_memWrite_record]
    by_cases hl : i ∈ l
    · simp [hl]
    · by_cases hx : i = x
      · subst hx; simp
      · simp [hl, hx]

/-- Settles O35: every index is among the 256 written, so no byte of the start image is left. -/
theorem bmuxIsItsPseudocode : Obligations.BmuxIsItsPseudocode := fun start recs => by
  have himage : IsImageOf (bmuxByWrites start recs) recs := fun i k => by
    rw [bmuxByWrites, getElem_foldl_memWrite, if_pos (List.mem_finRange i)]
  exact image_eq_of_isImageOf himage (isImageOf_bmux recs)

end Sys2Proof.Machine

/-! PROOFS. What an action can do to the invocations of one CORE (20_memory.md R31, R33, 70_reset_and_hazards.md R123). -/

namespace Sys2Proof.Machine

open Sys2Proof.Safety

/-! ### One action -/

/-- A CORE that has no step to take stays as it is (R123). -/
theorem apply_run_cases (s : State) :
    step s = .next (Action.run.apply s) ∨ ((∀ v ∈ s.invocations, v.call ≠ .inProgress) ∧ Action.run.apply s = s) := by
  cases hup : s.nextUp with
  | none =>
    have hnone := s.nextUp_eq_none_iff.1 hup
    exact .inr ⟨hnone, by simp [Action.apply, step_of_none_inProgress s hnone]⟩
  | some u => exact .inl (by simp [Action.apply, step_of_nextUp s u hup])

theorem apply_run_of_step {s t : State} (h : step s = .next t) : Action.run.apply s = t := by
  simp [Action.apply, h]

/-- Where an invocation after a step comes from. -/
theorem mem_of_mem_step {s t : State} (h : step s = .next t) {v : Invocation} (hv : v ∈ t.invocations) :
    v ∈ s.invocations ∨ ∃ w ∈ s.invocations, v = w.answered w.request.ownReply := by
  obtain ⟨w, rest, -, hs, ht⟩ := step_perm s t h
  obtain rfl | hrest := List.mem_cons.1 (ht.mem_iff.1 hv)
  · exact .inr ⟨w, hs.mem_iff.2 List.mem_cons_self, rfl⟩
  · exact .inl (hs.mem_iff.2 (List.mem_cons_of_mem _ hrest))

/-- Where an invocation goes in a step. -/
theorem mem_step_of_mem {s t : State} (h : step s = .next t) {v : Invocation} (hv : v ∈ s.invocations) :
    v ∈ t.invocations ∨ (v.call = .inProgress ∧ v.answered v.request.ownReply ∈ t.invocations) := by
  obtain ⟨w, rest, hcall, hs, ht⟩ := step_perm s t h
  obtain rfl | hrest := List.mem_cons.1 (hs.mem_iff.1 hv)
  · exact .inr ⟨hcall, ht.mem_iff.2 List.mem_cons_self⟩
  · exact .inl (ht.mem_iff.2 (List.mem_cons_of_mem _ hrest))

theorem Invocation.cut_eq_or_reply (v : Invocation) : v.cut = v ∨ v.cut.reply = none := by
  by_cases h : v.call = .inProgress
  · right; rw [v.cut_of_inProgress h]; rfl
  · exact .inl (v.cut_of_not_inProgress h)

/-- Closing takes a delivered reply away and does nothing else to an invocation. -/
theorem State.mem_of_mem_close (h : Nat) (s : State) {v : Invocation} (hv : v ∈ (s.close h).invocations) :
    v ∈ s.invocations ∨ v.reply = none := by
  rw [State.mem_invocations] at hv ⊢
  rcases hv with rfl | hv
  · unfold State.close
    split
    · exact .inr rfl
    · exact .inl (.inl rfl)
  · exact .inl (.inr (List.mem_of_mem_filter hv))

/-- All that an action can leave there: what was there, what has no reply, and what has been answered with the reply that its
request gets alone. -/
theorem mem_of_mem_apply (a : Action) (s : State) {v : Invocation} (hv : v ∈ (a.apply s).invocations) :
    v ∈ s.invocations ∨ v.reply = none ∨ ∃ w ∈ s.invocations, v = w.answered w.request.ownReply := by
  cases a with
  | present h q =>
    obtain rfl | hparked := List.mem_cons.1 hv
    · exact .inr (.inl (q.presented_reply h s.inp))
    · exact .inl (s.mem_parked v hparked)
  | turn k => exact .inl ((s.focus_perm k).mem_iff.1 hv)
  | run =>
    obtain hstep | ⟨-, hsame⟩ := apply_run_cases s
    · exact (mem_of_mem_step hstep hv).imp_right .inr
    · exact .inl (hsame ▸ hv)
  | close h => exact (s.mem_of_mem_close h hv).imp_right .inl
  | reset =>
    obtain ⟨w, hw, rfl⟩ := List.mem_map.1 (s.applyReset_invocations ▸ hv)
    exact w.cut_eq_or_reply.elim (fun hsame => .inl (hsame.symm ▸ hw)) fun hnone => .inr (.inl hnone)

/-! ### Any number of actions -/

section invariants
variable {P : Invocation → Prop} (hnone : ∀ v, v.reply = none → P v)
  (hanswered : ∀ v : Invocation, P (v.answered v.request.ownReply))
include hnone hanswered

/-- What holds of every invocation without a reply, and of every one answered with its own reply, is kept by every action. -/
theorem apply_keeps_invocations (a : Action) (s : State) (hs : ∀ v ∈ s.invocations, P v) :
    ∀ v ∈ (a.apply s).invocations, P v := fun v hv => by
  obtain hold | hreply | ⟨w, -, rfl⟩ := mem_of_mem_apply a s hv
  · exact hs v hold
  · exact hnone v hreply
  · exact hanswered w

theorem runAlone_keeps_invocations (actions : List Action) (s : State) (hs : ∀ v ∈ s.invocations, P v) :
    ∀ v ∈ (s.runAlone actions).invocations, P v := by
  induction actions generalizing s with
  | nil => exact hs
  | cons a rest ih => exact ih (a.apply s) (apply_keeps_invocations hnone hanswered a s hs)

end invariants

section accounting
variable {α : Type} {f : Invocation → α} {g : Nat × Request → α}
  (hanswered : ∀ v : Invocation, v.call = .inProgress → f (v.answered v.request.ownReply) = f v)
  (hpresented : ∀ h q inp, f (Request.presented h q inp) = g (h, q))

include hanswered in
/-- A step keeps the open invocations, as far as what is read of them does not change with the reply. -/
theorem step_live_map_perm {s t : State} (h : step s = .next t) : (t.live.map f).Perm (s.live.map f) := by
  obtain ⟨v, rest, hcall, hs, ht⟩ := step_perm s t h
  have hlive : v.live = true := v.live_iff.2 (by simp [hcall])
  refine ((ht.filter _).map f).trans (.trans ?_ ((hs.filter _).map f).symm)
  simp [List.filter_cons, hlive, hanswered v hcall]

include hanswered hpresented

theorem apply_live_map_perm (a : Action) (s : State) (hkeeps : a.keeps = true) :
    ((a.apply s).live.map f).Perm (s.live.map f ++ a.presented.toList.map g) := by
  cases a with
  | present h q =>
    refine ((s.present_live_perm h q).map f).trans ?_
    simpa [Action.presented, hpresented] using List.perm_append_comm (l₁ := [g (h, q)])
  | turn k => simpa [Action.presented, Action.apply, State.live] using ((s.focus_perm k).filter Invocation.live).map f
  | run =>
    obtain hstep | ⟨-, hsame⟩ := apply_run_cases s
    · simpa [Action.presented] using step_live_map_perm hanswered hstep
    · simp [Action.presented, hsame]
  | close h => simp [Action.keeps] at hkeeps
  | reset => simp [Action.keeps] at hkeeps

/-- The open invocations after actions that end none: those before, and those presented. -/
theorem runAlone_live_map_perm (actions : List Action) (s : State) (hkeeps : ∀ a ∈ actions, a.keeps = true) :
    ((s.runAlone actions).live.map f).Perm (s.live.map f ++ (actions.filterMap Action.presented).map g) := by
  induction actions generalizing s with
  | nil => simp
  | cons a rest ih =>
    rw [List.forall_mem_cons] at hkeeps
    refine (ih (a.apply s) hkeeps.2).trans ?_
    refine ((apply_live_map_perm hanswered hpresented a s hkeeps.1).append_right _).trans ?_
    rw [List.append_assoc, ← List.map_append]
    cases hp : a.presented <;> simp [hp]

end accounting

end Sys2Proof.Machine

/-! PROOFS. Several COREs and schedules: whatever the interleaving, each CORE and each of its invocations gets its own result
(20_memory.md section 10, 60_exceptions.md section 8). -/

namespace Sys2Proof.Machine

open Sys2Proof.Safety

theorem isOwnReply_ownReply (q : Request) : IsOwnReply q q.ownReply := fun h => exists_invoke_eq_next h q State.reset

theorem ownReply_of_reply_eq_none (v : Invocation) (h : v.reply = none) : OwnReply v := fun reply hreply => by
  simp [h] at hreply

theorem ownReply_answered (v : Invocation) : OwnReply (v.answered v.request.ownReply) := fun reply hreply => by
  obtain rfl : v.request.ownReply = reply := by simpa using hreply
  exact isOwnReply_ownReply v.request

/-- Only the events at CORE k act on it. -/
theorem System.getElem?_run (sys : System) (events : List Event) (k : Nat) :
    (sys.run events)[k]? = sys[k]?.map fun s => s.runAlone (actionsAt k events) := by
  induction events generalizing sys with
  | nil => simp [System.run, actionsAt]
  | cons e rest ih =>
    have hrun : sys.run (e :: rest) = (sys.apply e).run rest := rfl
    rw [hrun, ih, sys.getElem?_apply e k]
    by_cases hcore : e.core = k
    · simp [hcore, actionsAt, Function.comp_def]
    · simp [hcore, actionsAt]

/-- Settles O41: by induction on the events, each of which acts on its own CORE alone. -/
theorem interleavingGivesEachInstanceItsOwnResult : Obligations.InterleavingGivesEachInstanceItsOwnResult :=
  System.getElem?_run

/-- Settles O45: at one CORE a schedule is its own actions, which keep the invariant and account for every open
invocation. -/
theorem anyInterleavingGivesEveryInvocationItsResultAlone :
    Obligations.AnyInterleavingGivesEveryInvocationItsResultAlone := by
  intro sys events k s t hs ht
  obtain rfl : s.runAlone (actionsAt k events) = t := by simpa [sys.getElem?_run, hs] using ht
  refine ⟨runAlone_keeps_invocations ownReply_of_reply_eq_none ownReply_answered (actionsAt k events) s, fun hkeeps => ?_⟩
  simpa using runAlone_live_map_perm (f := Invocation.asked) (g := id) (fun _ _ => rfl)
    (fun h q inp => by simp [Invocation.asked]) (actionsAt k events) s hkeeps

end Sys2Proof.Machine

/-! PROOFS. The replies of the operations are those of the rules' relations, which fix them (files 40 to 44, 00_scope.md section 6). -/

namespace Sys2Proof.Machine

open Sys2Proof.Safety

/-! ### A Tile and its grid of numbers (R80) -/

/-- The grid of numbers that a Tile holds, as `IsGridOf` reads it. -/
def gridOf (t : Tile) : RawTile := t.toList.map fun row => row.toList.map BitVec.toNat

theorem isGridOf_iff (t : Tile) (raw : RawTile) : IsGridOf t raw ↔ gridOf t = raw := Iff.rfl

theorem areGridsOf_iff (tiles : TileBank) (raw : RawBank) : AreGridsOf tiles raw ↔ tiles.toList.map gridOf = raw := Iff.rfl

theorem gridOf_injective : Function.Injective gridOf := fun t u h => by
  have hrow : Function.Injective fun row : Row => row.toList.map BitVec.toNat := fun x y hxy =>
    Vector.toList_inj.1 (List.map_injective_iff.2 (fun _ _ => BitVec.eq_of_toNat_eq) hxy)
  exact Vector.toList_inj.1 (List.map_injective_iff.2 hrow h)

theorem tileShape_gridOf (t : Tile) : TileShape (gridOf t) := by
  simp [TileShape, gridOf]

theorem tileValues_gridOf (t : Tile) : TileValues (gridOf t) := by
  simp only [TileValues, gridOf, List.forall_mem_map]
  exact fun row _ v _ => Nat.le_of_lt_succ v.isLt

theorem rawPixel_eq_getElem (raw : RawTile) (r c : Nat) (hr : r < raw.length) (hc : c < raw[r].length) :
    rawPixel raw r c = raw[r][c] := by
  simp [rawPixel, hr, hc]

/-- With both tests passed nothing is masked: the conversion keeps every number (R80). -/
theorem gridOf_tileOfRaw {raw : RawTile} (hshape : TileShape raw) (hvalues : TileValues raw) :
    gridOf (tileOfRaw raw) = raw := by
  obtain ⟨hrows, hcols⟩ := hshape
  refine List.ext_getElem (by simp [gridOf, hrows]) fun r _ hr => List.ext_getElem ?_ fun c _ hc => ?_
  · simp [gridOf, hcols raw[r] (List.getElem_mem hr)]
  · have hpixel : raw[r][c] ≤ 3 := hvalues _ (List.getElem_mem hr) _ (List.getElem_mem hc)
    have hraw := rawPixel_eq_getElem raw r c hr hc
    simp only [gridOf, tileOfRaw, List.getElem_map, Vector.getElem_toList, Vector.getElem_ofFn, hraw, BitVec.toNat_ofNat]
    omega

theorem map_gridOf_tilesOfRaw {raw : RawBank} (hshape : BankShape raw) (hvalues : BankValues raw) :
    (tilesOfRaw raw).toList.map gridOf = raw := by
  obtain ⟨hcount, hshapes⟩ := hshape
  refine List.ext_getElem (by simp [hcount]) fun i _ hi => ?_
  simpa [tilesOfRaw, hi] using gridOf_tileOfRaw (hshapes _ (List.getElem_mem hi)) (hvalues _ (List.getElem_mem hi))

theorem tiles_eq_of_areGridsOf {x y : TileBank} {raw : RawBank} (hx : AreGridsOf x raw) (hy : AreGridsOf y raw) : x = y :=
  Vector.toList_inj.1 (List.map_injective_iff.2 gridOf_injective (hx.trans hy.symm))

/-! ### What the admission checks accept -/

theorem admitTile_of_shape_of_values {raw : RawTile} (hshape : TileShape raw) (hvalues : TileValues raw) :
    admitTile raw = .ok (tileOfRaw raw) := by
  simp [admitTile, (tileShapeOk_iff raw).2 hshape, (tileValuesOk_iff raw).2 hvalues]

theorem admitBank_of_shape_of_values {raw : RawBank} (hshape : BankShape raw) (hvalues : BankValues raw) :
    admitBank raw = .ok (tilesOfRaw raw) := by
  simp [admitBank, (bankShapeOk_iff raw).2 hshape, (bankValuesOk_iff raw).2 hvalues]

theorem admitTile_gridOf (t : Tile) : admitTile (gridOf t) = .ok t := by
  have hgrid := gridOf_tileOfRaw (tileShape_gridOf t) (tileValues_gridOf t)
  rw [admitTile_of_shape_of_values (tileShape_gridOf t) (tileValues_gridOf t), gridOf_injective hgrid]

theorem admitBank_map_gridOf (tiles : TileBank) : admitBank (tiles.toList.map gridOf) = .ok tiles := by
  have hshape : BankShape (tiles.toList.map gridOf) :=
    ⟨by simp, List.forall_mem_map.2 fun t _ => tileShape_gridOf t⟩
  have hvalues : BankValues (tiles.toList.map gridOf) := List.forall_mem_map.2 fun t _ => tileValues_gridOf t
  rw [admitBank_of_shape_of_values hshape hvalues, tiles_eq_of_areGridsOf (map_gridOf_tilesOfRaw hshape hvalues) rfl]

theorem exists_admitTile_error {raw : RawTile} (hbad : ¬ (TileShape raw ∧ TileValues raw)) : ∃ e, admitTile raw = .error e ∧
    ((¬ TileShape raw ∧ e = .invalidBitmapShape) ∨ (TileShape raw ∧ e = .invalidPixelValue)) := by
  obtain ⟨hshape, hvalues, -⟩ | ⟨hshape, -, hadmit⟩ | ⟨hshape, hadmit⟩ := admitTile_cases raw
  · exact absurd ⟨hshape, hvalues⟩ hbad
  · exact ⟨_, hadmit, .inr ⟨hshape, rfl⟩⟩
  · exact ⟨_, hadmit, .inl ⟨hshape, rfl⟩⟩

theorem exists_admitBank_error {raw : RawBank} (hbad : ¬ (BankShape raw ∧ BankValues raw)) : ∃ e, admitBank raw = .error e ∧
    ((¬ BankShape raw ∧ e = .invalidBitmapShape) ∨ (BankShape raw ∧ e = .invalidPixelValue)) := by
  obtain ⟨hshape, hvalues, -⟩ | ⟨hshape, -, hadmit⟩ | ⟨hshape, hadmit⟩ := admitBank_cases raw
  · exact absurd ⟨hshape, hvalues⟩ hbad
  · exact ⟨_, hadmit, .inr ⟨hshape, rfl⟩⟩
  · exact ⟨_, hadmit, .inl ⟨hshape, rfl⟩⟩

/-! ### The rules' relations and the replies -/

/-- Every operation's reply is one that its rule allows. -/
theorem conforms_answer (i : Instr) (inp : Inputs) : Conforms i inp (answer i inp) := by
  cases i with
  | tenc => exact ⟨_, rfl, isRecordOf_tenc inp.tile⟩
  | tdec => exact ⟨_, rfl, isTileOf_tdec inp.record⟩
  | bmux => exact ⟨_, rfl, isImageOf_bmux inp.recs⟩
  | bdmx => exact ⟨_, rfl, isImageOf_bdmx inp.bank⟩
  | benc => exact ⟨_, rfl, isImageOfTiles_benc inp.tiles⟩
  | bdec =>
    by_cases hlen : inp.data.length = 4096
    · refine .inl ⟨hlen, _, ?_, areTilesOf_map_tdec_bdmx inp.data hlen⟩
      rw [answer, bdec_of_length inp.data hlen]
      rfl
    · refine .inr ⟨hlen, ?_⟩
      rw [answer, bdec_of_length_ne inp.data hlen]
      rfl
  | admitTile =>
    obtain ⟨hshape, hvalues, h⟩ | ⟨hshape, hvalues, h⟩ | ⟨hshape, h⟩ := admitTile_cases inp.rawTile
    · exact .inl ⟨hshape, hvalues, tileOfRaw inp.rawTile, by rw [answer, h]; rfl, gridOf_tileOfRaw hshape hvalues⟩
    · exact .inr (.inl ⟨hshape, hvalues, by rw [answer, h]; rfl⟩)
    · exact .inr (.inr ⟨hshape, by rw [answer, h]; rfl⟩)
  | admitBank =>
    obtain ⟨hshape, hvalues, h⟩ | ⟨hshape, hvalues, h⟩ | ⟨hshape, h⟩ := admitBank_cases inp.rawBank
    · exact .inl ⟨hshape, hvalues, tilesOfRaw inp.rawBank, by rw [answer, h]; rfl, map_gridOf_tilesOfRaw hshape hvalues⟩
    · exact .inr (.inl ⟨hshape, hvalues, by rw [answer, h]; rfl⟩)
    · exact .inr (.inr ⟨hshape, by rw [answer, h]; rfl⟩)

theorem tile_eq_of_isTileOf {t u : Tile} {rec : TileRecord} (ht : IsTileOf t rec) (hu : IsTileOf u rec) : t = u :=
  tile_ext t u fun r c => BitVec.eq_of_toNat_eq ((ht r c).trans (hu r c).symm)

theorem tiles_eq_of_areTilesOf {x y : TileBank} {data : ByteString} {h : data.length = 4096} (hx : AreTilesOf x data h)
    (hy : AreTilesOf y data h) : x = y :=
  tiles_ext x y fun i r c => BitVec.eq_of_toNat_eq ((hx i r c).trans (hy i r c).symm)

/-- A rule allows one reply only, the one that the operation computes: in each of its cases the relation has one output. -/
theorem reply_eq_answer_of_conforms {i : Instr} {inp : Inputs} {r : Reply} (h : Conforms i inp r) : r = answer i inp := by
  cases i with
  | tenc =>
    obtain ⟨rec, rfl, hrec⟩ := h
    rw [record_eq_of_isRecordOf hrec (isRecordOf_tenc inp.tile), answer]
  | tdec =>
    obtain ⟨t, rfl, ht⟩ := h
    rw [tile_eq_of_isTileOf ht (isTileOf_tdec inp.record), answer]
  | bmux =>
    obtain ⟨bank, rfl, hbank⟩ := h
    rw [image_eq_of_isImageOf hbank (isImageOf_bmux inp.recs), answer]
  | bdmx =>
    obtain ⟨recs, rfl, hrecs⟩ := h
    rw [records_eq_of_isImageOf hrecs (isImageOf_bdmx inp.bank), answer]
  | benc =>
    obtain ⟨bank, rfl, hbank⟩ := h
    rw [image_eq_of_isImageOfTiles hbank (isImageOfTiles_benc inp.tiles), answer]
  | bdec =>
    obtain ⟨hlen, tiles, rfl, htiles⟩ | ⟨hlen, rfl⟩ := h
    · rw [tiles_eq_of_areTilesOf htiles (areTilesOf_map_tdec_bdmx inp.data hlen), answer, bdec_of_length inp.data hlen]
      rfl
    · rw [answer, bdec_of_length_ne inp.data hlen]
      rfl
  | admitTile =>
    obtain ⟨-, -, t, rfl, hgrid⟩ | ⟨hshape, hvalues, rfl⟩ | ⟨hshape, rfl⟩ := h
    · rw [answer, ← (isGridOf_iff t inp.rawTile).1 hgrid, admitTile_gridOf]
      rfl
    · rw [answer, (admitTile_eq_error_iff _ _).2 (.inr ⟨hshape, hvalues, rfl⟩)]
      rfl
    · rw [answer, (admitTile_eq_error_iff _ _).2 (.inl ⟨hshape, rfl⟩)]
      rfl
  | admitBank =>
    obtain ⟨-, -, tiles, rfl, hgrids⟩ | ⟨hshape, hvalues, rfl⟩ | ⟨hshape, rfl⟩ := h
    · rw [answer, ← (areGridsOf_iff tiles inp.rawBank).1 hgrids, admitBank_map_gridOf]
      rfl
    · rw [answer, (admitBank_eq_error_iff _ _).2 (.inr ⟨hshape, hvalues, rfl⟩)]
      rfl
    · rw [answer, (admitBank_eq_error_iff _ _).2 (.inl ⟨hshape, rfl⟩)]
      rfl

/-- Settles O49: the reply of `exec` is `answer`, which conforms. -/
theorem everyOperationConformsToItsRule : Obligations.EveryOperationConformsToItsRule := fun i s =>
  ⟨answer i s.inp, exec_eq i s, conforms_answer i s.inp⟩

/-- Settles O50: both replies are the operation's own. -/
theorem theRulesFixTheReply : Obligations.TheRulesFixTheReply := fun _ _ _ _ h h' =>
  (reply_eq_answer_of_conforms h).trans (reply_eq_answer_of_conforms h').symm

/-! ### The invariant of a run -/

/-- What is delivered of one invocation is what its rule allows; `DeliveredConforms` says it of every one of a state. -/
def Invocation.Conforming (v : Invocation) : Prop := ∀ reply, v.reply = some reply → Conforms (decode v.op) v.inp reply

theorem deliveredConforms_iff (s : State) : DeliveredConforms s ↔ ∀ v ∈ s.invocations, v.Conforming := Iff.rfl

theorem Invocation.conforming_of_reply_eq_none (v : Invocation) (h : v.reply = none) : v.Conforming := fun reply hreply => by
  simp [h] at hreply

theorem Invocation.conforming_answered (v : Invocation) : (v.answered v.request.ownReply).Conforming := fun reply hreply => by
  obtain rfl : v.request.ownReply = reply := by simpa using hreply
  rw [← v.answer_eq]
  exact conforms_answer (decode v.op) v.inp

theorem apply_keeps_deliveredConforms (a : Action) (s : State) (hs : DeliveredConforms s) : DeliveredConforms (a.apply s) :=
  (deliveredConforms_iff _).2 <| apply_keeps_invocations Invocation.conforming_of_reply_eq_none
    Invocation.conforming_answered a s ((deliveredConforms_iff s).1 hs)

/-- Settles O51: every action keeps the invariant, and a step is what the action `run` does. -/
theorem stepKeepsDeliveredConforms : Obligations.StepKeepsDeliveredConforms := fun s hs =>
  ⟨fun _ hstep => apply_run_of_step hstep ▸ apply_keeps_deliveredConforms .run s hs,
    fun a => apply_keeps_deliveredConforms a s hs⟩

/-- Settles O52: the one invocation of the reset state has no reply. -/
theorem resetDeliveredConforms : Obligations.ResetDeliveredConforms :=
  List.forall_mem_singleton.2 (State.reset.toInvocation.conforming_of_reply_eq_none rfl)

/-! ### The admission checks (R80, R81) -/

theorem exec_admitTile_eq (s : State) :
    exec .admitTile s = .next (s.withReply (replyOf ((admitTile s.inp.rawTile).map .tile))) := exec_eq .admitTile s

theorem exec_admitBank_eq (s : State) :
    exec .admitBank s = .next (s.withReply (replyOf ((admitBank s.inp.rawBank).map .tiles))) := exec_eq .admitBank s

/-- Settles O19: one clause for each thing ADMIT_TILE's check can answer. -/
theorem admitTileDeliversTheGridOrRaises : Obligations.AdmitTileDeliversTheGridOrRaises := by
  refine ⟨rfl, fun s => ⟨fun ⟨hshape, hvalues⟩ => ⟨tileOfRaw s.inp.rawTile, ?_, gridOf_tileOfRaw hshape hvalues⟩,
    fun ⟨hshape, hvalues⟩ => ?_, fun hshape => ?_⟩⟩
  · rw [exec_admitTile_eq, admitTile_of_shape_of_values hshape hvalues]
    rfl
  · rw [exec_admitTile_eq, (admitTile_eq_error_iff _ _).2 (.inr ⟨hshape, hvalues, rfl⟩)]
    rfl
  · rw [exec_admitTile_eq, (admitTile_eq_error_iff _ _).2 (.inl ⟨hshape, rfl⟩)]
    rfl

/-- Settles O20: one clause for each thing ADMIT_BANK's check can answer. -/
theorem admitBankDeliversTheGridsOrRaises : Obligations.AdmitBankDeliversTheGridsOrRaises := by
  refine ⟨rfl, fun s => ⟨fun ⟨hshape, hvalues⟩ => ⟨tilesOfRaw s.inp.rawBank, ?_, map_gridOf_tilesOfRaw hshape hvalues⟩,
    fun ⟨hshape, hvalues⟩ => ?_, fun hshape => ?_⟩⟩
  · rw [exec_admitBank_eq, admitBank_of_shape_of_values hshape hvalues]
    rfl
  · rw [exec_admitBank_eq, (admitBank_eq_error_iff _ _).2 (.inr ⟨hshape, hvalues, rfl⟩)]
    rfl
  · rw [exec_admitBank_eq, (admitBank_eq_error_iff _ _).2 (.inl ⟨hshape, rfl⟩)]
    rfl

/-! ### `encode` as a chain of two invocations (R55, R85) -/

@[simp] theorem ownReply_admitTile (raw : RawTile) :
    (Request.admitTile raw).ownReply = replyOf ((admitTile raw).map .tile) := rfl

@[simp] theorem ownReply_admitBank (raw : RawBank) :
    (Request.admitBank raw).ownReply = replyOf ((admitBank raw).map .tiles) := rfl

/-- A chain ends with the reply to its second request when the first is answered with an output that makes one. -/
theorem exists_thenInvoke_of_ok (h : Nat) (next : Output → Option Request) (s : State) (q q' : Request) (out : Output)
    (hreply : q.ownReply = .ok out) (hnext : next out = some q') :
    ∃ u, thenInvoke h next (s.invoke h q) = .next u ∧ u.reply = some q'.ownReply := by
  rw [invoke_eq, hreply, thenInvoke_ok h next _ out q' hnext]
  exact exists_invoke_eq_next h q' _

theorem exists_thenInvoke_of_raised (h : Nat) (next : Output → Option Request) (s : State) (q : Request) (e : Error)
    (hreply : q.ownReply = .raised e) :
    ∃ u, thenInvoke h next (s.invoke h q) = .next u ∧ u.reply = some (.raised e) := by
  rw [invoke_eq, hreply, thenInvoke_raised]
  exact ⟨_, rfl, (s.present h q).toInvocation.answered_reply _⟩

/-- Settles O53: a grid of a Tile is admitted as that Tile, which TENC encodes; an error ends the chain. -/
theorem encodeOfASingleTile : Obligations.EncodeOfASingleTile := by
  refine fun h s raw => ⟨?_, fun hbad => ?_⟩
  · rintro t rfl
    obtain ⟨u, hchain, hreply⟩ := exists_thenInvoke_of_ok h encodeRequest s (.admitTile (gridOf t)) (.tenc t) (.tile t)
      (by rw [ownReply_admitTile, admitTile_gridOf]; rfl) rfl
    exact ⟨u, tenc t, hchain, hreply, isRecordOf_tenc t⟩
  · obtain ⟨e, hadmit, hkind⟩ := exists_admitTile_error hbad
    obtain ⟨u, hchain, hreply⟩ := exists_thenInvoke_of_raised h encodeRequest s (.admitTile raw) e
      (by rw [ownReply_admitTile, hadmit]; rfl)
    exact ⟨u, e, hchain, hreply, hkind⟩

/-- Settles O54: the grids of a Tile bank are admitted as that bank, which BENC encodes; an error ends the chain. -/
theorem encodeOfAFullBank : Obligations.EncodeOfAFullBank := by
  refine fun h s raw => ⟨?_, fun hbad => ?_⟩
  · rintro tiles rfl
    obtain ⟨u, hchain, hreply⟩ := exists_thenInvoke_of_ok h encodeRequest s (.admitBank (tiles.toList.map gridOf))
      (.benc tiles) (.tiles tiles) (by rw [ownReply_admitBank, admitBank_map_gridOf]; rfl) rfl
    exact ⟨u, benc tiles, hchain, hreply, isImageOfTiles_benc tiles⟩
  · obtain ⟨e, hadmit, hkind⟩ := exists_admitBank_error hbad
    obtain ⟨u, hchain, hreply⟩ := exists_thenInvoke_of_raised h encodeRequest s (.admitBank raw) e
      (by rw [ownReply_admitBank, hadmit]; rfl)
    exact ⟨u, e, hchain, hreply, hkind⟩

end Sys2Proof.Machine

/-! PROOFS. The step: when there is one, which operation it performs, and that each invocation ends once (70_reset_and_hazards.md
sections 3 and 4, R123, R128). -/

namespace Sys2Proof.Machine

open Sys2Proof.Safety

/-! ### There is a step exactly when something is in progress -/

theorem exists_step_of_inProgress {s : State} {v : Invocation} (hv : v ∈ s.invocations) (hcall : v.call = .inProgress) :
    ∃ t, step s = .next t := by
  obtain hstep | ⟨hnone, -⟩ := apply_run_cases s
  · exact ⟨_, hstep⟩
  · exact absurd hcall (hnone v hv)

/-- Settles O6: `nextUp` finds an invocation exactly when one is in progress. -/
theorem noStepWithoutAnInvocation : Obligations.NoStepWithoutAnInvocation := fun s =>
  ⟨step_of_none_inProgress s, fun ⟨_, hv, hcall⟩ => exists_step_of_inProgress hv hcall⟩

theorem step_eq_exec_of_nextUp {s u : State} (h : s.nextUp = some u) : step s = exec (decode u.op) u := by
  simp [step, h]

/-- With the turn given to position k, the invocation that stood there has it. -/
theorem State.focus_toInvocation (s : State) (k : Nat) (hk : k < s.others.length) :
    (s.focus k).toInvocation = s.others[k] := by
  simp [State.focus, hk]

theorem decodeTableWord_eq_some_iff (nbits w : Nat) (i : Instr) :
    decodeTableWord nbits w = some i ↔ decode (selectBits nbits w) = i := by
  simp [decodeTableWord]

/-- A presentation with the inputs that stand on the ports ends no open invocation (R110). -/
theorem State.mem_live_withFetchWord (s : State) (nbits w : Nat) {v : Invocation} (hv : v ∈ s.live) :
    v ∈ (s.withFetchWord nbits w).live := by
  obtain ⟨hmem, hlive⟩ := List.mem_filter.1 hv
  have hparked := s.mem_parked_of_live v hmem (v.live_iff.1 hlive)
  exact List.mem_filter.2 ⟨List.mem_cons_of_mem _ hparked, hlive⟩

/-- Settles O5: `nextUp` keeps the turn or gives it to the first other invocation in progress; a presented word takes it. -/
theorem stepRunsTheSelectedOperation : Obligations.StepRunsTheSelectedOperation := by
  refine ⟨fun s hcall => step_eq_exec_of_nextUp (s.nextUp_of_inProgress hcall), fun s k hcall hk => ⟨?_, ?_⟩,
    fun s nbits w i hi => ⟨?_, s.withFetchWord_inp nbits w, fun v hv => s.mem_live_withFetchWord nbits w hv⟩⟩
  · exact step_eq_exec_of_nextUp (s.nextUp_of_findIdx k hcall hk)
  · obtain ⟨hlt, -⟩ := List.findIdx?_eq_some_iff_getElem.1 hk
    rw [s.focus_toInvocation k hlt, List.getElem?_eq_getElem hlt]
  · rw [← (decodeTableWord_eq_some_iff nbits w i).1 hi]
    exact step_eq_exec_of_nextUp (State.nextUp_of_inProgress _ (s.withFetchWord_call nbits w))

/-- Settles O48: a reply, and with it a status, is read off a delivered call alone. -/
theorem noOutputBeforeDelivery : Obligations.NoOutputBeforeDelivery := by
  have hnone (v : Invocation) (hcall : v.call = .inProgress) : v.reply = none ∧ v.status = none := by
    simp [Invocation.reply, Invocation.status, hcall]
  exact ⟨rfl, rfl, fun h q s => hnone _ (q.presented_call h s.inp), hnone⟩

/-! ### How many are in progress -/

theorem State.inProgressCount_eq_zero_iff (s : State) : s.inProgressCount = 0 ↔ ∀ v ∈ s.invocations, v.call ≠ .inProgress := by
  simp [State.inProgressCount, List.countP_eq_zero]

theorem inProgressCount_of_step {s t : State} (h : step s = .next t) : t.inProgressCount + 1 = s.inProgressCount := by
  obtain ⟨v, rest, hcall, hs, ht⟩ := step_perm s t h
  have hv : v.inProgress = true := v.inProgress_iff.2 hcall
  simp [State.inProgressCount, hs.countP_eq, ht.countP_eq, hv]

theorem inProgressCount_apply_run (s : State) : (Action.run.apply s).inProgressCount = s.inProgressCount - 1 := by
  obtain hstep | ⟨hnone, hsame⟩ := apply_run_cases s
  · have := inProgressCount_of_step hstep
    omega
  · rw [hsame, s.inProgressCount_eq_zero_iff.2 hnone]

theorem inProgressCount_present (h : Nat) (q : Request) (s : State) :
    (s.present h q).inProgressCount = s.inProgressCount + 1 := by
  have hparked : s.parked.countP Invocation.inProgress = s.inProgressCount := by
    unfold State.parked State.inProgressCount State.invocations
    cases hcall : s.call <;> simp [hcall]
  have hinvocations : (s.present h q).invocations = q.presented h s.inp :: s.parked := rfl
  rw [State.inProgressCount, hinvocations, List.countP_cons_of_pos (q.presented_inProgress h s.inp), hparked]

/-! ### Every invocation is delivered once -/

theorem mem_step_of_not_inProgress {s t : State} (h : step s = .next t) {v : Invocation} (hv : v ∈ s.invocations)
    (hcall : v.call ≠ .inProgress) : v ∈ t.invocations :=
  (mem_step_of_mem h hv).resolve_right fun hanswered => hcall hanswered.1

theorem mem_runs_of_not_inProgress (n : Nat) {s : State} {v : Invocation} (hv : v ∈ s.invocations)
    (hcall : v.call ≠ .inProgress) : v ∈ (s.runAlone (List.replicate n .run)).invocations := by
  induction n generalizing s with
  | zero => exact hv
  | succ n ih =>
    refine ih (s := Action.run.apply s) ?_
    obtain hstep | ⟨-, hsame⟩ := apply_run_cases s
    · exact mem_step_of_not_inProgress hstep hv hcall
    · exact hsame.symm ▸ hv

/-- After as many steps as invocations are in progress, each of those is answered: a step answers it, or one of the
others before it. -/
theorem answered_mem_runs (n : Nat) {s : State} (hn : s.inProgressCount ≤ n) {v : Invocation} (hv : v ∈ s.invocations)
    (hcall : v.call = .inProgress) :
    v.answered v.request.ownReply ∈ (s.runAlone (List.replicate n .run)).invocations := by
  induction n generalizing s with
  | zero => exact absurd hcall (s.inProgressCount_eq_zero_iff.1 (Nat.le_zero.1 hn) v hv)
  | succ n ih =>
    obtain ⟨t, hstep⟩ := exists_step_of_inProgress hv hcall
    have hcount := inProgressCount_of_step hstep
    rw [List.replicate_succ, State.runAlone_cons, apply_run_of_step hstep]
    obtain hwaits | ⟨-, hanswered⟩ := mem_step_of_mem hstep hv
    · exact ih (by omega) hwaits
    · exact mem_runs_of_not_inProgress n hanswered (by simp)

/-- Settles O7: a step answers the turn's invocation, the runs answer every one, and none is answered that is not in progress. -/
theorem everyInvocationEndsAndDeliversOnce : Obligations.EveryInvocationEndsAndDeliversOnce :=
  ⟨fun s hcall => ⟨_, step_of_inProgress s hcall⟩,
    fun s v hv hcall => ⟨v.request.ownReply, answered_mem_runs s.inProgressCount le_rfl hv hcall⟩,
    fun _ _ hstep => ⟨inProgressCount_of_step hstep, fun _ hv hcall => mem_step_of_not_inProgress hstep hv hcall⟩⟩

end Sys2Proof.Machine

/-! PROOFS. Replies and the hosts: each is its request's own and goes to its own host (20_memory.md section 10, 60_exceptions.md
sections 3 to 5, 70_reset_and_hazards.md sections 1 and 3). -/

namespace Sys2Proof.Machine

open Sys2Proof.Safety

/-- Settles O40: both invocations deliver the request's own reply. -/
theorem repliesDependOnTheRequestAlone : Obligations.RepliesDependOnTheRequestAlone := by
  intro q h1 h2 s1 s2
  obtain ⟨t1, hinvoke1, hreply1⟩ := exists_invoke_eq_next h1 q s1
  obtain ⟨t2, hinvoke2, hreply2⟩ := exists_invoke_eq_next h2 q s2
  exact ⟨t1, t2, q.ownReply, hinvoke1, hinvoke2, hreply1, hreply2⟩

theorem reply_of_invoke {h : Nat} {q : Request} {s t : State} (hinvoke : s.invoke h q = .next t) :
    t.reply = some q.ownReply := by
  obtain ⟨u, hu, hreply⟩ := exists_invoke_eq_next h q s
  rw [hu] at hinvoke
  exact Host.Outcome.next.inj hinvoke ▸ hreply

/-- Settles O28: after an error, as after reset, every request is answered with its own reply. -/
theorem anErrorLeavesNoTrace : Obligations.AnErrorLeavesNoTrace := by
  intro h q s t e hinvoke herror
  refine ⟨?_, fun h' q' => ?_⟩
  · obtain ⟨t', hinvoke', hreply'⟩ := exists_invoke_eq_next h q t
    exact ⟨t', hinvoke', hreply'.trans ((reply_of_invoke hinvoke).symm.trans herror)⟩
  · obtain ⟨u, v, reply, hu, hv, hreplies⟩ := repliesDependOnTheRequestAlone q' h' h' t State.reset
    exact ⟨u, v, reply, hu, hv, hreplies⟩

/-- Settles O42: `step_perm`, with the reply named as the one the request gets alone. -/
theorem stepAnswersOneInvocationAndNoOther : Obligations.StepAnswersOneInvocationAndNoOther := by
  intro s t hstep
  obtain ⟨v, rest, hcall, hs, ht⟩ := step_perm s t hstep
  exact ⟨v, v.request.ownReply, rest, hcall, hs, ht, isOwnReply_ownReply v.request⟩

/-- Settles O44: a presentation keeps what is open, a turn rearranges, a step answers or leaves, a closing takes delivered
ones alone. -/
theorem nothingButResetEndsAnOperationInProgress : Obligations.NothingButResetEndsAnOperationInProgress := by
  intro a s ha v hv hcall
  cases a with
  | present h q => exact .inl (List.mem_cons_of_mem _ (s.mem_parked_of_live v hv (by simp [hcall])))
  | turn k => exact .inl ((s.focus_perm k).mem_iff.2 hv)
  | run =>
    obtain ⟨t, hstep⟩ := exists_step_of_inProgress hv hcall
    rw [apply_run_of_step hstep]
    refine (mem_step_of_mem hstep hv).imp_right fun hanswered => ?_
    exact ⟨v.request.ownReply, hanswered.2, isOwnReply_ownReply v.request⟩
  | close h => exact .inl (s.mem_close h v hv (by simp [Invocation.deliveredTo, Invocation.reply, hcall]))
  | reset => exact absurd rfl ha

/-! ### What is delivered to a host -/

/-- What has been delivered to host h among some invocations; `State.repliesTo` reads it off those of a state. -/
def repliesAmong (h : Nat) (l : List Invocation) : List (Request × Reply) :=
  l.filterMap fun v => if v.host = h then v.reply.map fun r => (v.request, r) else none

theorem State.repliesTo_eq (h : Nat) (s : State) : s.repliesTo h = repliesAmong h s.invocations := rfl

theorem repliesAmong_perm (h : Nat) {l l' : List Invocation} (hp : l.Perm l') : (repliesAmong h l).Perm (repliesAmong h l') :=
  hp.filterMap _

theorem repliesAmong_cons_of_reply_none (h : Nat) (v : Invocation) (l : List Invocation) (hv : v.reply = none) :
    repliesAmong h (v :: l) = repliesAmong h l := by
  simp [repliesAmong, hv]

theorem repliesAmong_cons_answered_same (v : Invocation) (r : Reply) (l : List Invocation) :
    repliesAmong v.host (v.answered r :: l) = (v.request, r) :: repliesAmong v.host l := by
  simp [repliesAmong]

theorem repliesAmong_cons_answered_other (h : Nat) (v : Invocation) (r : Reply) (l : List Invocation) (hne : h ≠ v.host) :
    repliesAmong h (v.answered r :: l) = repliesAmong h l := by
  simp [repliesAmong, hne.symm]

/-- Parking drops an idle invocation alone, to which nothing has been delivered. -/
theorem State.repliesAmong_parked_perm (h : Nat) (s : State) : (repliesAmong h s.parked).Perm (s.repliesTo h) := by
  rw [s.repliesTo_eq, State.invocations]
  unfold State.parked
  cases hcall : s.call
  case idle => rw [repliesAmong_cons_of_reply_none h _ _ (by simp [Invocation.reply, hcall])]
  all_goals exact repliesAmong_perm h (List.perm_append_comm (l₂ := [s.toInvocation]))

/-- Settles O43: the answered invocation adds its reply to its own host's deliveries, and the others are as before. -/
theorem repliesGoToTheInvokingHostAlone : Obligations.RepliesGoToTheInvokingHostAlone := by
  refine ⟨fun s t hstep => ?_, fun h q s => ?_⟩
  · obtain ⟨v, rest, hcall, hs, ht⟩ := step_perm s t hstep
    have hbefore (h : Nat) : (s.repliesTo h).Perm (repliesAmong h rest) := by
      rw [← repliesAmong_cons_of_reply_none h v rest (by simp [Invocation.reply, hcall])]
      exact repliesAmong_perm h hs
    refine ⟨v, v.request.ownReply, hs.mem_iff.2 List.mem_cons_self, hcall, ?_, fun h hne => ?_⟩
    · have hafter := repliesAmong_perm v.host ht
      rw [repliesAmong_cons_answered_same] at hafter
      exact hafter.trans ((hbefore v.host).symm.cons _)
    · have hafter := repliesAmong_perm h ht
      rw [repliesAmong_cons_answered_other h v _ rest hne] at hafter
      exact hafter.trans (hbefore h).symm
  · refine ⟨_, q.ownReply, invoke_eq h q s, (s.present h q).toInvocation.answered_reply _, ?_, fun h' hne => ?_⟩
    · have hafter := repliesAmong_cons_answered_same (q.presented h s.inp) q.ownReply s.parked
      rw [q.presented_host, q.presented_request] at hafter
      exact .trans (.of_eq hafter) ((s.repliesAmong_parked_perm h).cons _)
    · have hafter := repliesAmong_cons_answered_other h' (q.presented h s.inp) q.ownReply s.parked hne
      exact .trans (.of_eq hafter) (s.repliesAmong_parked_perm h')

/-! ### Reset (decision D13) -/

theorem State.applyReset_no_inProgress (s : State) : ∀ v ∈ s.applyReset.invocations, v.call ≠ .inProgress := by
  rw [s.applyReset_invocations, List.forall_mem_map]
  exact fun v _ => v.cut_call_ne

/-- Cutting leaves an invocation open exactly when it was delivered. -/
theorem filter_live_map_cut (l : List Invocation) :
    (l.map Invocation.cut).filter Invocation.live = (l.filter Invocation.live).filter fun v => v.reply.isSome := by
  induction l with
  | nil => rfl
  | cons v l ih =>
    cases hcall : v.call <;>
      simp [ih, Invocation.live, Invocation.cut, Invocation.reply, hcall]

/-- Settles O47: reset cuts what is in progress and nothing else, so a request invoked again is answered as ever. -/
theorem resetCanBeObservedOnlyDuringAnOperation : Obligations.ResetCanBeObservedOnlyDuringAnOperation := by
  refine ⟨State.applyReset_of_no_inProgress, fun s hcall => ⟨?_, ?_, s.toInvocation.cut_inp⟩, fun s => ⟨?_, ?_⟩, fun h q s => ?_⟩
  · rw [s.applyReset_toInvocation, s.toInvocation.cut_of_inProgress hcall]
    rfl
  · exact step_of_none_inProgress _ s.applyReset_no_inProgress
  · exact (State.inProgressCount_eq_zero_iff _).2 s.applyReset_no_inProgress
  · exact .of_eq (filter_live_map_cut s.invocations)
  · exact repliesDependOnTheRequestAlone q h h _ s

/-! ### Concurrent and sequential calls (45_laws.md section 4) -/

/-- The outcome of an invocation with its own reply filled in where it has none yet. -/
def Invocation.completed (v : Invocation) : Nat × Request × Option Reply :=
  (v.host, v.request, some (v.reply.getD v.request.ownReply))

/-- The outcome of a call: its request's own reply for its host. -/
def completedCall (c : Nat × Request) : Nat × Request × Option Reply := (c.1, c.2, some c.2.ownReply)

theorem Invocation.completed_answered (v : Invocation) (h : v.call = .inProgress) :
    (v.answered v.request.ownReply).completed = v.completed := by
  simp [Invocation.completed, Invocation.reply, h]

theorem completed_presented (h : Nat) (q : Request) (inp : Inputs) : (q.presented h inp).completed = completedCall (h, q) := by
  simp [Invocation.completed, completedCall]

/-- With nothing in progress every open invocation has its reply, so nothing is left to fill in. -/
theorem State.live_map_outcome (s : State) (h : s.inProgressCount = 0) :
    s.live.map Invocation.outcome = s.live.map Invocation.completed := by
  refine List.map_congr_left fun v hv => ?_
  obtain ⟨hmem, hlive⟩ := List.mem_filter.1 hv
  have hne := s.inProgressCount_eq_zero_iff.1 h v hmem
  cases hcall : v.call with
  | idle => exact absurd hcall (v.live_iff.1 hlive)
  | inProgress => exact absurd hcall hne
  | delivered r => simp [Invocation.outcome, Invocation.completed, Invocation.reply, hcall]

theorem State.runAlone_append (s : State) (first rest : List Action) :
    s.runAlone (first ++ rest) = (s.runAlone first).runAlone rest :=
  List.foldl_append

theorem inProgressCount_presents (calls : List (Nat × Request)) (s : State) :
    (s.runAlone (calls.map fun c => .present c.1 c.2)).inProgressCount = s.inProgressCount + calls.length := by
  induction calls generalizing s with
  | nil => rfl
  | cons c calls ih =>
    rw [List.map_cons, State.runAlone_cons, ih, Action.apply, inProgressCount_present, List.length_cons]
    omega

theorem inProgressCount_runs (n : Nat) (s : State) :
    (s.runAlone (List.replicate n .run)).inProgressCount = s.inProgressCount - n := by
  induction n generalizing s with
  | zero => rfl
  | succ n ih =>
    rw [List.replicate_succ, State.runAlone_cons, ih, inProgressCount_apply_run]
    omega

theorem inProgressCount_concurrently (calls : List (Nat × Request)) (s : State) :
    (s.runAlone (concurrently calls)).inProgressCount = s.inProgressCount := by
  rw [concurrently, State.runAlone_append, inProgressCount_runs, inProgressCount_presents, Nat.add_sub_cancel]

theorem inProgressCount_sequentially (calls : List (Nat × Request)) (s : State) :
    (s.runAlone (sequentially calls)).inProgressCount = s.inProgressCount := by
  induction calls generalizing s with
  | nil => rfl
  | cons c calls ih =>
    have hcons : sequentially (c :: calls) = .present c.1 c.2 :: .run :: sequentially calls := rfl
    rw [hcons, State.runAlone_cons, State.runAlone_cons, ih, inProgressCount_apply_run, Action.apply,
      inProgressCount_present, Nat.add_sub_cancel]

theorem filterMap_presented_concurrently (calls : List (Nat × Request)) :
    (concurrently calls).filterMap Action.presented = calls := by
  simp [concurrently, List.filterMap_append, List.filterMap_map, List.filterMap_replicate, Function.comp_def, Action.presented]

theorem filterMap_presented_sequentially (calls : List (Nat × Request)) :
    (sequentially calls).filterMap Action.presented = calls := by
  induction calls with
  | nil => rfl
  | cons c calls ih =>
    have hcons : sequentially (c :: calls) = .present c.1 c.2 :: .run :: sequentially calls := rfl
    simp [hcons, List.filterMap_cons, ih, Action.presented]

theorem keeps_concurrently (calls : List (Nat × Request)) : ∀ a ∈ concurrently calls, a.keeps = true := by
  intro a ha
  obtain hpresent | hrun := List.mem_append.1 ha
  · obtain ⟨c, -, rfl⟩ := List.mem_map.1 hpresent
    rfl
  · rw [List.eq_of_mem_replicate hrun]
    rfl

theorem keeps_sequentially (calls : List (Nat × Request)) : ∀ a ∈ sequentially calls, a.keeps = true := by
  intro a ha
  obtain ⟨c, -, hc⟩ := List.mem_flatMap.1 ha
  obtain rfl | rfl : a = .present c.1 c.2 ∨ a = .run := by simpa using hc
  · rfl
  · rfl

/-- The outcomes after actions that present some calls, end no open invocation, and leave nothing in progress. -/
theorem live_map_outcome_perm {s : State} {actions : List Action} (hs : s.inProgressCount = 0)
    (hend : (s.runAlone actions).inProgressCount = 0) (hkeeps : ∀ a ∈ actions, a.keeps = true) :
    ((s.runAlone actions).live.map Invocation.outcome).Perm
      (s.live.map Invocation.outcome ++ (actions.filterMap Action.presented).map completedCall) := by
  rw [State.live_map_outcome _ hend, s.live_map_outcome hs]
  exact runAlone_live_map_perm Invocation.completed_answered completed_presented actions s hkeeps

/-- Settles O46: both ways end with the outcomes of before and the calls, each with its own reply. -/
theorem concurrentCallsGetWhatSequentialCallsGet : Obligations.ConcurrentCallsGetWhatSequentialCallsGet := by
  intro s calls hnone
  have hs := s.inProgressCount_eq_zero_iff.2 hnone
  have hconc := live_map_outcome_perm hs ((inProgressCount_concurrently calls s).trans hs) (keeps_concurrently calls)
  have hseq := live_map_outcome_perm hs ((inProgressCount_sequentially calls s).trans hs) (keeps_sequentially calls)
  rw [filterMap_presented_concurrently] at hconc
  rw [filterMap_presented_sequentially] at hseq
  refine ⟨hconc.trans hseq.symm, calls.map fun c => c.2.ownReply, ?_, ?_⟩
  · exact List.forall₂_map_right_iff.2 (List.forall₂_same.2 fun c _ => isOwnReply_ownReply c.2)
  · rw [List.zipWith_map_right, List.zipWith_self]
    exact hconc

end Sys2Proof.Machine

/-! PROOFS. The select word, the address map and the status codes (30_encoding.md section 5, 20_memory.md section 5,
60_exceptions.md section 1). -/

namespace Sys2Proof.Machine

/-- Settles O1: the code column of R50, row by row. -/
theorem selectWordsDecodeToTheirOperations : Obligations.SelectWordsDecodeToTheirOperations :=
  ⟨rfl, rfl, rfl, rfl, rfl, rfl, rfl, rfl⟩

theorem decode_encode (i : Instr) : decode (encode i) = i := by
  cases i <;> rfl

theorem encode_decode (op : BitVec 3) : encode (decode op) = op := by
  revert op; decide

/-- Settles O2: every operation is well formed and every word assigned, so the two are inverse with no exception. -/
theorem selectDecodeAndEncodeAgree : Obligations.SelectDecodeAndEncodeAgree :=
  ⟨fun i _ => decode_encode i, encode_decode⟩

/-- Settles O3: over the eight words. -/
theorem selectBitsSortTheOperations : Obligations.SelectBitsSortTheOperations := by
  unfold Obligations.SelectBitsSortTheOperations
  decide

/-- Bits 2 to 0 of a word of at least three bits are bits 2 to 0 of any longer one: 8 divides the range of the word. -/
theorem selectBits_of_three_le (nbits w : Nat) (h : 3 ≤ nbits) : selectBits nbits w = BitVec.ofNat 3 w := by
  have hdvd : 2 ^ 3 ∣ 2 ^ nbits := Nat.pow_dvd_pow 2 h
  apply BitVec.eq_of_toNat_eq
  rw [selectBits, BitVec.toNat_ofNat, BitVec.toNat_ofNat, Nat.mod_mod_of_dvd w hdvd]

/-- Settles O4: the word and its remainder by 8 have the same three low bits. -/
theorem tableWordIsReadInItsLowThreeBits : Obligations.TableWordIsReadInItsLowThreeBits := by
  intro nbits w h
  have hlow : BitVec.ofNat 3 (w % 8) = BitVec.ofNat 3 w := BitVec.eq_of_toNat_eq (by simp)
  simp only [decodeTableWord, selectBits_of_three_le nbits _ h, hlow, and_self]

theorem planeOfOffset_bankOffset (i : Fin 256) (q : Fin 2) (r : Fin 8) : planeOfOffset (bankOffset i q r) = q := by
  ext; simp only [planeOfOffset, bankOffset_val]; omega

theorem rowOfOffset_bankOffset (i : Fin 256) (q : Fin 2) (r : Fin 8) : rowOfOffset (bankOffset i q r) = r := by
  ext; simp only [rowOfOffset, bankOffset_val]; omega

theorem bankOffset_ofOffset (a : Fin 4096) : bankOffset (tileOfOffset a) (planeOfOffset a) (rowOfOffset a) = a := by
  ext; simp only [bankOffset_val, tileOfOffset, planeOfOffset, rowOfOffset]; omega

/-- Settles O11: the map and its parts are inverse, and the parts are division and remainder by powers of 2. -/
theorem bankAddressMapIsOneToOne : Obligations.BankAddressMapIsOneToOne := by
  refine ⟨fun i q r => ⟨bankOffset_val i q r, tileOfOffset_bankByte i _, planeOfOffset_bankOffset i q r,
    rowOfOffset_bankOffset i q r⟩, fun a => ⟨bankOffset_ofOffset a, ?_, ?_, ?_⟩⟩
  · exact (Nat.shiftRight_eq_div_pow a.val 4).symm
  · rw [Nat.and_one_is_mod, Nat.shiftRight_eq_div_pow]
    simp only [planeOfOffset]
    omega
  · exact (Nat.and_two_pow_sub_one_eq_mod a.val 3).symm

theorem status_code_eq_zero_iff (st : Status) : st.code = 0#2 ↔ st = .ok := by
  cases st <;> simp [Status.code]

/-- Settles O26: the codes of R101, of which 0 is OK's alone. -/
theorem statusCodesTellTheKindsApart : Obligations.StatusCodesTellTheKindsApart :=
  ⟨rfl, rfl, rfl, fun _ _ => rfl, status_code_eq_zero_iff⟩

end Sys2Proof.Machine

/-! PROOFS. The status an operation ends with (60_exceptions.md R104, R115). -/

namespace Sys2Proof.Machine

theorem status_of_exec {i : Instr} {s t : State} (h : exec i s = .next t) : t.status = some (answer i s.inp).status := by
  rw [Invocation.status, reply_of_exec h]
  rfl

theorem Error.status_ne_ok (e : Error) : e.status ≠ .ok := by
  cases e <;> simp [Error.status]

theorem Reply.status_eq_ok_iff (r : Reply) : r.status = .ok ↔ ∃ out, r = .ok out := by
  cases r with
  | ok out => simp [Reply.status]
  | raised e => simp [Reply.status, e.status_ne_ok]

/-- A reply is an output or an error, and without status OK it is the error. -/
theorem Reply.exists_raised_of_status_ne_ok (r : Reply) (h : r.status ≠ .ok) : ∃ e, r = .raised e := by
  cases r with
  | ok out => exact absurd rfl h
  | raised e => exact ⟨e, rfl⟩

theorem exists_bdec_eq_ok_iff (data : ByteString) : (∃ tiles, bdec data = .ok tiles) ↔ data.length = 4096 := by
  by_cases h : data.length = 4096
  · simp [bdec_of_length data h, h]
  · simp [bdec_of_length_ne data h, h]

theorem answer_bdec_status_ok_iff (inp : Inputs) : (answer .bdec inp).status = .ok ↔ inp.data.length = 4096 := by
  rw [Reply.status_eq_ok_iff, ← exists_bdec_eq_ok_iff]
  simp only [answer, replyOf_map_eq_ok_iff]
  exact ⟨fun ⟨_, tiles, h, _⟩ => ⟨tiles, h⟩, fun ⟨tiles, h⟩ => ⟨_, tiles, h, rfl⟩⟩

/-- Settles O25: the table's rows, the five operations that deliver an output whatever the input, and BDEC's length test. -/
theorem eachOperationEndsOnlyWithItsStatuses : Obligations.EachOperationEndsOnlyWithItsStatuses := by
  refine ⟨fun i s t e => mayRaise_of_reply, fun i s t hi h => ?_, fun s t h => ?_⟩
  · rw [status_of_exec h]
    cases i with
    | tenc | tdec | bmux | bdmx | benc => rfl
    | bdec | admitTile | admitBank => simp at hi
  · rw [status_of_exec h, Option.some.injEq, answer_bdec_status_ok_iff]

/-- Settles O27: without status OK the reply is an error, which the next state holds and nothing else new. -/
theorem anErrorDeliversNoDataAndSavesNothing : Obligations.AnErrorDeliversNoDataAndSavesNothing := by
  intro i s t h hstatus
  have hne : (answer i s.inp).status ≠ .ok := fun hok => hstatus ((status_of_exec h).trans (congrArg some hok))
  obtain ⟨e, he⟩ := (answer i s.inp).exists_raised_of_status_ne_ok hne
  refine ⟨e, ?_, ?_, fun out hout => ?_⟩
  · rw [(exec_eq_next_iff i s t).1 h, he]
    rfl
  · rw [status_of_exec h, he]
    rfl
  · exact hstatus (t.toInvocation.status_of_reply_ok out hout)

end Sys2Proof.Machine

/-! PROOFS. Rows, planes, and what one pixel or one bit can touch (30_encoding.md section 2, 45_laws.md section 3). -/

namespace Sys2Proof.Machine

open Sys2Proof.Safety

/-- Settles O9: each plane byte bit by bit, and as the sum of its bits. -/
theorem rowEncodePacksLeftmostColumnHighest : Obligations.RowEncodePacksLeftmostColumnHighest := fun w =>
  ⟨fun c => ⟨getLsbD_planeByte 0 w c, getLsbD_planeByte 1 w c⟩, toNat_planeByte 0 w, toNat_planeByte 1 w⟩

theorem planeByte_rowDec (p0 p1 : Byte) (q : Fin 2) : planeByte q (rowDec p0 p1) = if q = 0 then p0 else p1 :=
  byte_ext _ _ fun c => by
    rw [getLsbD_planeByte, getElem_rowDec, getLsbD_assemble]
    split <;> rfl

theorem rowEnc_rowDec (p0 p1 : Byte) : rowEnc (rowDec p0 p1) = (p0, p1) :=
  Prod.ext (planeByte_rowDec p0 p1 0) (planeByte_rowDec p0 p1 1)

theorem rowDec_rowEnc (w : Row) : rowDec (rowEnc w).1 (rowEnc w).2 = w := by
  have hcolumn (c : Fin 8) : (rowDec (rowEnc w).1 (rowEnc w).2)[c] = w[c] := by
    have h0 : (rowEnc w).1.getLsbD (7 - c.val) = w[c].getLsbD 0 := getLsbD_planeByte 0 w c
    have h1 : (rowEnc w).2.getLsbD (7 - c.val) = w[c].getLsbD 1 := getLsbD_planeByte 1 w c
    rw [getElem_rowDec, h0, h1, assemble_getLsbD]
  exact Vector.ext fun c hc => hcolumn ⟨c, hc⟩

/-- Settles O10: a decoded pixel is its two bits, read as shifts; the two directions are inverse column by column. -/
theorem rowDecodeReadsLeftmostColumnHighest : Obligations.RowDecodeReadsLeftmostColumnHighest :=
  ⟨fun p0 p1 c => by rw [getElem_rowDec, toNat_assemble, toNat_getLsbD_eq_shiftRight_and_one,
      toNat_getLsbD_eq_shiftRight_and_one], rowEnc_rowDec, rowDec_rowEnc⟩

/-- Settles O36: the relation of R60 ties each plane byte to its own bit of the pixels, for TENC and for TDEC. -/
theorem planesAreSeparable : Obligations.PlanesAreSeparable := by
  refine ⟨fun q t u hbits r => byte_ext _ _ fun c => ?_, fun q x y hbytes r c => ?_⟩
  · rw [isRecordOf_tenc t q r c, isRecordOf_tenc u q r c, hbits r c]
  · rw [← isRecordOf_tdec x q r c, ← isRecordOf_tdec y q r c, hbytes r]

/-! ### One pixel -/

/-- Bit j of byte a of the image of a Tile bank is one bit of one pixel (R37, R82). -/
theorem getLsbD_of_isImageOfTiles {bank : BankImage} {tiles : TileBank} (h : IsImageOfTiles bank tiles) (a : Fin 4096)
    (j c : Fin 8) (hj : j.val = 7 - c.val) :
    bank[a].getLsbD j.val = tiles[tileOfOffset a][rowOfOffset a][c].getLsbD (planeOfOffset a).val := by
  have hbyte : 16 * (tileOfOffset a).val + 8 * (planeOfOffset a).val + (rowOfOffset a).val = a.val :=
    (bankOffset_val _ _ _).symm.trans (congrArg Fin.val (bankOffset_ofOffset a))
  have hbit := h (tileOfOffset a) (planeOfOffset a) (rowOfOffset a) c
  simp only [hbyte] at hbit
  rw [hj]
  exact hbit

theorem getElem_set_pixel (tiles : TileBank) (i i' : Fin 256) (r r' c c' : Fin 8) (v : Pixel) :
    (tiles.set i.val (tiles[i].set r.val (tiles[i][r].set c.val v)))[i'][r'][c'] =
      if i = i' ∧ r = r' ∧ c = c' then v else tiles[i'][r'][c'] := by
  by_cases hi : i = i'
  · subst hi
    by_cases hr : r = r'
    · subst hr
      simp [Vector.getElem_set, Fin.ext_iff]
    · have hne : r.val ≠ r'.val := Fin.val_ne_of_ne hr
      simp [hr, hne]
  · have hne : i.val ≠ i'.val := Fin.val_ne_of_ne hi
    simp [hi, hne]

/-- Settles O37: bit j of byte a is a bit of the changed pixel exactly at the two places named, one in each plane. -/
theorem onePixelTouchesOnlyItsTwoBits : Obligations.OnePixelTouchesOnlyItsTwoBits := by
  intro tiles i r c v a j
  have hcol : j.val = 7 - (7 - j.val) := by omega
  have himage (ts : TileBank) := getLsbD_of_isImageOfTiles (isImageOfTiles_benc ts) a j ⟨7 - j.val, by omega⟩ hcol
  rw [himage, himage, getElem_set_pixel]
  by_cases hpixel : i = tileOfOffset a ∧ r = rowOfOffset a ∧ c = ⟨7 - j.val, by omega⟩
  · obtain ⟨rfl, rfl, rfl⟩ := hpixel
    have hplane : (planeOfOffset a).val = a.val % 16 / 8 := rfl
    have hplace0 : a.val = 16 * (tileOfOffset a).val + (rowOfOffset a).val ↔ (planeOfOffset a).val = 0 := by
      simp only [tileOfOffset, rowOfOffset]
      omega
    have hplace1 : a.val = 16 * (tileOfOffset a).val + 8 + (rowOfOffset a).val ↔ (planeOfOffset a).val = 1 := by
      simp only [tileOfOffset, rowOfOffset]
      omega
    rw [if_pos ⟨rfl, rfl, rfl⟩, hplace0, hplace1]
    obtain hq | hq : (planeOfOffset a).val = 0 ∨ (planeOfOffset a).val = 1 := by omega
    · simp [hq, ← hcol, eq_comm]
    · simp [hq, ← hcol, eq_comm]
  · rw [if_neg hpixel]
    simp only [Fin.ext_iff, tileOfOffset, rowOfOffset] at hpixel
    simp only [ne_eq, not_true_eq_false, false_iff]
    omega

/-! ### One bit of an image -/

/-- Flipping one bit of a byte string changes that bit and no other. -/
theorem getLsbD_getElem_set_flip (data : ByteString) (a b j k : Nat) (ha : a < data.length) (hb : b < data.length)
    (hk : k < 8) :
    ((data.set a (data[a] ^^^ (1#8 <<< j)))[b]'(by simpa using hb)).getLsbD k =
      (data[b].getLsbD k ^^ decide (a = b ∧ j = k)) := by
  rw [List.getElem_set]
  by_cases hab : a = b
  · subst hab
    have hbit : (1#8 <<< j).getLsbD k = decide (j = k) := by
      rw [Bool.eq_iff_iff]
      simp only [BitVec.getLsbD_shiftLeft, BitVec.getLsbD_one, hk, decide_true, Bool.true_and, Bool.and_eq_true,
        Bool.not_eq_true', decide_eq_false_iff_not, decide_eq_true_eq]
      omega
    simp [hbit]
  · simp [hab]

/-- With at most one of its two bits flipped, a pixel changes by that bit's weight. -/
theorem natAbs_sub_of_flip (b0 b1 f0 f1 : Bool) (h : ¬ (f0 = true ∧ f1 = true)) :
    (((b0 ^^ f0).toNat + 2 * (b1 ^^ f1).toNat : Nat) - (b0.toNat + 2 * b1.toNat : Nat) : Int).natAbs =
      f0.toNat + 2 * f1.toNat := by
  revert b0 b1 f0 f1; decide

/-- Settles O38: the flipped bit is bit 0 or bit 1 of one pixel, by the plane of its byte, and no bit of any other. -/
theorem oneImageBitTouchesOnlyItsPixel : Obligations.OneImageBitTouchesOnlyItsPixel := by
  intro data h a j
  have h' : (data.set a.val (data[a.val] ^^^ (1#8 <<< j.val))).length = 4096 := (List.length_set).trans h
  refine ⟨_, _, bdec_of_length data h, bdec_of_length _ h', fun i r c => ?_⟩
  rw [areTilesOf_map_tdec_bdmx data h i r c, areTilesOf_map_tdec_bdmx _ h' i r c]
  rw [getLsbD_getElem_set_flip _ _ _ _ _ (by omega) (by omega) (by omega),
    getLsbD_getElem_set_flip _ _ _ _ _ (by omega) (by omega) (by omega), natAbs_sub_of_flip]
  · simp only [Bool.toNat, Bool.cond_decide]
    split_ifs <;> omega
  · simp only [decide_eq_true_eq]
    omega

end Sys2Proof.Machine

/-! PROOFS. Flat ports (10_state.md section 3, decision D2). -/

namespace Sys2Proof.Machine

theorem tileOfPixels_pixels (t : Tile) : tileOfPixels (pixels t) = t :=
  tile_ext _ _ fun r c => (getElem_tileOfPixels (pixels t) r c).trans (getElem_pixels t r c)

theorem recordOfFlat_flatRecord (r : TileRecord) : recordOfFlat (flatRecord r) = r := unpack_pack r

theorem tileOfFlat_flatTile (t : Tile) : tileOfFlat (flatTile t) = t :=
  (congrArg tileOfPixels (unpack_pack (pixels t))).trans (tileOfPixels_pixels t)

theorem bankOfFlat_flatBank (k : BankImage) : bankOfFlat (flatBank k) = k := unpack_pack k

theorem mapVec_mapVec_of_leftInverse {α β : Type} {n : Nat} {f : α → β} {g : β → α} (h : Function.LeftInverse g f)
    (v : Vector α n) : mapVec g (mapVec f v) = v := by
  simp [h.comp_eq_id]

theorem recsOfFlat_flatRecs (rs : RecordBank) : recsOfFlat (flatRecs rs) = rs :=
  (congrArg (mapVec recordOfFlat) (unpack_pack (mapVec flatRecord rs))).trans
    (mapVec_mapVec_of_leftInverse recordOfFlat_flatRecord rs)

theorem tilesOfFlat_flatTiles (ts : TileBank) : tilesOfFlat (flatTiles ts) = ts :=
  (congrArg (mapVec tileOfFlat) (unpack_pack (mapVec flatTile ts))).trans
    (mapVec_mapVec_of_leftInverse tileOfFlat_flatTile ts)

theorem getLsbD_flatTile (t : Tile) (r c : Fin 8) (j : Fin 2) :
    (flatTile t).getLsbD (2 * (8 * r.val + c.val) + j.val) = t[r][c].getLsbD j.val := by
  rw [← getElem_pixels t r c]
  exact getLsbD_pack (pixels t) (8 * r.val + c.val) j.val j.isLt (by omega)

/-- Bit j of lane i of a bank's flat port is bit j of the flat form of element i. -/
theorem getLsbD_pack_mapVec {α : Type} {w n : Nat} (f : α → BitVec w) (v : Vector α n) (i : Fin n) (j : Fin w) :
    (pack (mapVec f v)).getLsbD (w * i.val + j.val) = (f v[i]).getLsbD j.val := by
  rw [← getElem_mapVec f v i]
  exact getLsbD_pack (mapVec f v) i.val j.val j.isLt i.isLt

/-- Settles O39: every port is a `pack` of its elements, which `unpack` undoes. -/
theorem flatPortsPackElementZeroLowest : Obligations.FlatPortsPackElementZeroLowest :=
  ⟨fun r k j => getLsbD_pack r k.val j.val j.isLt k.isLt, getLsbD_flatTile,
    fun k a j => getLsbD_pack k a.val j.val j.isLt a.isLt, getLsbD_pack_mapVec flatRecord, getLsbD_pack_mapVec flatTile,
    recordOfFlat_flatRecord, tileOfFlat_flatTile, bankOfFlat_flatBank, recsOfFlat_flatRecs, tilesOfFlat_flatTiles⟩

end Sys2Proof.Machine

/-! PROOFS. Fixed-width ports (decisions D10 and D11, 93_implementation_defined.md U8, log 14). -/

namespace Sys2Proof.Machine

open Sys2Proof.Safety

/-! ### LEN -/

theorem bdecFixed_of_len {lenw : Nat} (p : DataPort lenw) (h : p.len.toNat = 4096) :
    bdecFixed p = .ok ((bdmx p.buffer).map tdec) := by
  simp [bdecFixed, h]

theorem bdecFixed_of_len_ne {lenw : Nat} (p : DataPort lenw) (h : p.len.toNat ≠ 4096) :
    bdecFixed p = .error (.invalidBankSize 4096 p.len.toNat) := by
  simp [bdecFixed, h]

/-- Saturation shows a length that does not fit as the greatest one, which is above 4096 on at least 13 bits. -/
theorem DataPort.Presents.len_toNat {lenw : Nat} {p : DataPort lenw} {data : ByteString} (h : p.Presents data) :
    p.len.toNat = min data.length (2 ^ lenw - 1) := by
  rw [h.1, toNat_lenOnPort]

/-- Settles O55: a length that fits is shown as it is; one that is not 4096 is shown as itself or as at least 8191. -/
theorem fixedWidthBdecAgrees : Obligations.FixedWidthBdecAgrees := by
  intro lenw p data hw hp
  have hlen := hp.len_toNat
  have hrange : 2 ^ 13 ≤ 2 ^ lenw := Nat.pow_le_pow_right (by decide) hw
  refine ⟨fun hfits => ?_, fun hne => ⟨p.len.toNat, by omega, bdecFixed_of_len_ne p (by omega)⟩⟩
  by_cases h : data.length = 4096
  · have hbuffer : p.buffer = bankOfBytes data h := Vector.toList_inj.1 (hp.2 h)
    rw [bdecFixed_of_len p (by omega), bdec_of_length data h, hbuffer]
  · have hsame : p.len.toNat = data.length := by omega
    rw [bdecFixed_of_len_ne p (by omega), bdec_of_length_ne data h, hsame]

/-! ### Raw tiles -/

theorem all_toList_iff {α : Type} {n : Nat} (v : Vector α n) (f : α → Bool) :
    v.toList.all f = true ↔ ∀ i : Fin n, f v[i] = true := by
  simp [Fin.forall_iff]

theorem RawTilePort.shapeOk_iff {pixw : Nat} (p : RawTilePort pixw) :
    p.shapeOk = true ↔ p.rows = 8 ∧ ∀ r : Fin 8, p.cols[r] = 8 := by
  rw [RawTilePort.shapeOk, Bool.and_eq_true, all_toList_iff]
  simp only [decide_eq_true_eq]

theorem RawTilePort.valuesOk_iff {pixw : Nat} (p : RawTilePort pixw) :
    p.valuesOk = true ↔ ∀ r c : Fin 8, p.values[r][c].toNat ≤ 3 := by
  simp only [RawTilePort.valuesOk, all_toList_iff, decide_eq_true_eq]

theorem RawTilePort.getElem_tile {pixw : Nat} (p : RawTilePort pixw) (r c : Fin 8) :
    p.tile[r][c] = BitVec.ofNat 2 p.values[r][c].toNat := by
  simp [RawTilePort.tile]

theorem forall_mem_iff_of_length {α : Type} {n : Nat} {l : List α} (h : l.length = n) (P : α → Prop) :
    (∀ x ∈ l, P x) ↔ ∀ i : Fin n, P (l[i.val]'(h ▸ i.isLt)) := by
  subst h
  simp [List.forall_mem_iff_getElem, Fin.forall_iff]

section tilePort
variable {pixw : Nat} {p : RawTilePort pixw} {raw : RawTile} (hp : p.Presents raw)
include hp

theorem RawTilePort.Presents.shapeOk_iff : p.shapeOk = true ↔ TileShape raw := by
  rw [p.shapeOk_iff, TileShape, hp.1]
  refine and_congr_right fun hrows => ?_
  rw [forall_mem_iff_of_length hrows]
  refine forall_congr' fun r => ?_
  have hr : r.val < raw.length := by omega
  rw [(hp.2 r _ (List.getElem?_eq_getElem hr)).1]

theorem RawTilePort.Presents.getElem_values (hshape : TileShape raw) (r c : Fin 8) :
    p.values[r][c] = valueOnPort pixw (rawPixel raw r.val c.val) := by
  obtain ⟨hrows, hcols⟩ := hshape
  have hr : r.val < raw.length := by omega
  have hc : c.val < raw[r.val].length := by rw [hcols _ (List.getElem_mem hr)]; exact c.isLt
  rw [rawPixel_eq_getElem raw r.val c.val hr hc]
  exact (hp.2 r _ (List.getElem?_eq_getElem hr)).2 c _ (List.getElem?_eq_getElem hc)

end tilePort

theorem tileValues_iff_rawPixel {raw : RawTile} (hshape : TileShape raw) :
    TileValues raw ↔ ∀ r c : Fin 8, rawPixel raw r.val c.val ≤ 3 := by
  obtain ⟨hrows, hcols⟩ := hshape
  rw [TileValues, forall_mem_iff_of_length hrows]
  refine forall_congr' fun r => ?_
  have hr : r.val < raw.length := by omega
  have hcol := hcols _ (List.getElem_mem hr)
  rw [forall_mem_iff_of_length hcol]
  refine forall_congr' fun c => ?_
  rw [rawPixel_eq_getElem raw r.val c.val hr (by omega)]

/-- A value above 3 is shown as one above 3, since a port of at least 3 bits saturates at 7 or more. -/
theorem toNat_valueOnPort_le_three_iff {pixw : Nat} (hw : 3 ≤ pixw) (v : Nat) : (valueOnPort pixw v).toNat ≤ 3 ↔ v ≤ 3 := by
  have hrange : 2 ^ 3 ≤ 2 ^ pixw := Nat.pow_le_pow_right (by decide) hw
  rw [toNat_valueOnPort]
  omega

theorem toNat_valueOnPort_of_le_three {pixw : Nat} (hw : 3 ≤ pixw) {v : Nat} (hv : v ≤ 3) : (valueOnPort pixw v).toNat = v := by
  have hrange : 2 ^ 3 ≤ 2 ^ pixw := Nat.pow_le_pow_right (by decide) hw
  rw [toNat_valueOnPort]
  omega

section tilePortValues
variable {pixw : Nat} {p : RawTilePort pixw} {raw : RawTile} (hw : 3 ≤ pixw) (hp : p.Presents raw) (hshape : TileShape raw)
include hw hp hshape

theorem RawTilePort.Presents.valuesOk_iff : p.valuesOk = true ↔ TileValues raw := by
  rw [p.valuesOk_iff, tileValues_iff_rawPixel hshape]
  refine forall_congr' fun r => forall_congr' fun c => ?_
  rw [hp.getElem_values hshape, toNat_valueOnPort_le_three_iff hw]

theorem RawTilePort.Presents.tile_eq (hvalues : TileValues raw) : p.tile = tileOfRaw raw :=
  tile_ext _ _ fun r c => by
    have hv := (tileValues_iff_rawPixel hshape).1 hvalues r c
    rw [p.getElem_tile, hp.getElem_values hshape, toNat_valueOnPort_of_le_three hw hv, getElem_tileOfRaw]

end tilePortValues

theorem admitTileFixed_eq_admitTile {pixw : Nat} {p : RawTilePort pixw} {raw : RawTile} (hw : 3 ≤ pixw) (hp : p.Presents raw) :
    admitTileFixed p = admitTile raw := by
  obtain ⟨hshape, hvalues, hadmit⟩ | ⟨hshape, hvalues, hadmit⟩ | ⟨hshape, hadmit⟩ := admitTile_cases raw
  · rw [hadmit, admitTileFixed, if_pos (hp.shapeOk_iff.2 hshape), if_pos ((hp.valuesOk_iff hw hshape).2 hvalues),
      hp.tile_eq hw hshape hvalues]
  · rw [hadmit, admitTileFixed, if_pos (hp.shapeOk_iff.2 hshape), if_neg (mt (hp.valuesOk_iff hw hshape).1 hvalues)]
  · rw [hadmit, admitTileFixed, if_neg (mt hp.shapeOk_iff.1 hshape)]

/-! ### Raw banks -/

/-- The shape test of ADMIT_BANK on a fixed-width port. -/
def RawBankPort.shapeOk {pixw : Nat} (p : RawBankPort pixw) : Bool :=
  decide (p.count = Config.tilesPerBank) && p.tiles.toList.all RawTilePort.shapeOk

/-- The value test of ADMIT_BANK on a fixed-width port. -/
def RawBankPort.valuesOk {pixw : Nat} (p : RawBankPort pixw) : Bool := p.tiles.toList.all RawTilePort.valuesOk

theorem admitBankFixed_eq {pixw : Nat} (p : RawBankPort pixw) : admitBankFixed p =
    if p.shapeOk then if p.valuesOk then .ok (mapVec RawTilePort.tile p.tiles) else .error .invalidPixelValue
    else .error .invalidBitmapShape := rfl

section bankPort
variable {pixw : Nat} {p : RawBankPort pixw} {raw : RawBank} (hp : p.Presents raw)
include hp

theorem RawBankPort.Presents.tile (hcount : raw.length = 256) (i : Fin 256) : p.tiles[i].Presents (raw[i.val]'(by omega)) :=
  hp.2 i _ (List.getElem?_eq_getElem _)

theorem RawBankPort.Presents.shapeOk_iff : p.shapeOk = true ↔ BankShape raw := by
  rw [RawBankPort.shapeOk, Bool.and_eq_true, decide_eq_true_eq, all_toList_iff, BankShape, hp.1]
  refine and_congr_right fun hcount => ?_
  rw [forall_mem_iff_of_length hcount]
  exact forall_congr' fun i => (hp.tile hcount i).shapeOk_iff

theorem RawBankPort.Presents.valuesOk_iff (hw : 3 ≤ pixw) (hshape : BankShape raw) : p.valuesOk = true ↔ BankValues raw := by
  obtain ⟨hcount, hshapes⟩ := hshape
  rw [RawBankPort.valuesOk, all_toList_iff, BankValues, forall_mem_iff_of_length hcount]
  exact forall_congr' fun i => (hp.tile hcount i).valuesOk_iff hw (hshapes _ (List.getElem_mem _))

theorem RawBankPort.Presents.tiles_eq (hw : 3 ≤ pixw) (hshape : BankShape raw) (hvalues : BankValues raw) :
    mapVec RawTilePort.tile p.tiles = tilesOfRaw raw := by
  obtain ⟨hcount, hshapes⟩ := hshape
  have htile (i : Fin 256) : (mapVec RawTilePort.tile p.tiles)[i] = (tilesOfRaw raw)[i] := by
    have hi : i.val < raw.length := by omega
    have hmem := List.getElem_mem hi
    rw [getElem_mapVec, getElem_tilesOfRaw, (hp.tile hcount i).tile_eq hw (hshapes _ hmem) (hvalues _ hmem)]
    simp [hi]
  exact Vector.ext fun i hi => htile ⟨i, hi⟩

end bankPort

theorem admitBankFixed_eq_admitBank {pixw : Nat} {p : RawBankPort pixw} {raw : RawBank} (hw : 3 ≤ pixw) (hp : p.Presents raw) :
    admitBankFixed p = admitBank raw := by
  obtain ⟨hshape, hvalues, hadmit⟩ | ⟨hshape, hvalues, hadmit⟩ | ⟨hshape, hadmit⟩ := admitBank_cases raw
  · rw [hadmit, admitBankFixed_eq, if_pos (hp.shapeOk_iff.2 hshape), if_pos ((hp.valuesOk_iff hw hshape).2 hvalues),
      hp.tiles_eq hw hshape hvalues]
  · rw [hadmit, admitBankFixed_eq, if_pos (hp.shapeOk_iff.2 hshape), if_neg (mt (hp.valuesOk_iff hw hshape).1 hvalues)]
  · rw [hadmit, admitBankFixed_eq, if_neg (mt hp.shapeOk_iff.1 hshape)]

/-- Settles O56: on the port each test says what it says of the raw data, and an accepted value is shown as it is. -/
theorem fixedWidthAdmissionAgrees : Obligations.FixedWidthAdmissionAgrees :=
  ⟨fun _ _ _ => admitTileFixed_eq_admitTile, fun _ _ _ => admitBankFixed_eq_admitBank⟩

end Sys2Proof.Machine
